-- ==== Sys2Proof/Word.lean ====
section
/-! DEFINITION. The word types of the block (00_scope.md rules R8, R9, R12). Every value is unsigned. -/

namespace Sys2Proof

/-- A register, a data address or a byte count: 32 bits (R8, R9). -/
abbrev Word := BitVec 32

/-- A byte of the data space (R50). -/
abbrev Byte := BitVec 8

/-- A CRC-16 accumulator: 16 bits (R8). -/
abbrev Half := BitVec 16

end Sys2Proof
end

