-- ==== Sys2Proof/Syntax.lean ====
section
/-! DEFINITION. The commands of the block, the fields of a command word, the registers of the window and the width of a
host access (30_encoding.md, 10_state.md rule R20). -/

namespace Sys2Proof

/-- The six operations, one constructor per row of the opcode table (00_scope.md rule R3, 30_encoding.md rule R71). A CRC
carries BUFP, whether its buffer is present (R73); no other operand stands in a command word (R75). -/
inductive Instr where
  | crc16 (bufp : Bool)
  | crc32 (bufp : Bool)
  | gcd
  | grayenc
  | graydec
  | isqrt
  deriving DecidableEq, Repr

/-- The fields of a 32-bit command word (R70): OP in bits 3:0, BUFP in bit 4, RES in bits 31:5. -/
structure Fields where
  op   : BitVec 4
  bufp : Bool
  res  : BitVec 27
  deriving DecidableEq, Repr

/-- The names of the register window (10_state.md rule R20). `reserved` stands for the offsets 0x28 to 0x3C, which behave
alike (R21). -/
inductive Reg where
  | cmd | a | b | len | result | status | errinfo | config | poly16 | poly32 | reserved
  deriving DecidableEq, Repr

/-- The width of a host access; only word accesses have a meaning (10_state.md rule R21). -/
inductive Width where
  | byte | half | word
  deriving DecidableEq, Repr

end Sys2Proof
end

