-- ==== Sys2Proof/WellFormed.lean ====
section
/-! DEFINITION. When the fields of a command word are those of a command (30_encoding.md rules R71 to R73). A term of
`Instr` carries no field that could be ill-formed, so the checks stand on the fields. -/

namespace Sys2Proof

/-- RES must be 0 (R72). -/
def Fields.resOk (f : Fields) : Bool := f.res == 0

/-- OP is one of 1 to 6; 0 and 7 to 15 are reserved (R71). -/
def Fields.opOk (f : Fields) : Bool := 1 ≤ f.op.toNat && f.op.toNat ≤ 6

/-- BUFP may be 1 for CRC16 and CRC32 only (R73). -/
def Fields.bufpOk (f : Fields) : Bool := !f.bufp || f.op == 1 || f.op == 2

/-- The fields are those of one of the eight legal command words (R74). -/
def Fields.wf (f : Fields) : Bool := f.resOk && f.opOk && f.bufpOk

end Sys2Proof
end

