-- ==== Sys2Proof/Decode.lean ====
section
/-! DEFINITION. The decoder of a command word, total on all 2^32 words (30_encoding.md rule R74), and the encoder, written
from the same table (R70, R71). -/

namespace Sys2Proof

/-- Why a command word is no command: the three parts of the illegal space (30_encoding.md rule R77). -/
inductive Illegal where
  /-- A bit of RES is set (R72). -/
  | reservedBits
  /-- OP is 0 or 7 to 15 (R71). -/
  | reservedOp (op : BitVec 4)
  /-- BUFP = 1 with an operation that has no buffer (R73). -/
  | bufpNotAllowed (op : BitVec 4)
  deriving DecidableEq, Repr

/-- The fields of a word (R70). -/
def fieldsOf (v : Word) : Fields :=
  { op := v.extractLsb' 0 4, bufp := v.getLsbD 4, res := v.extractLsb' 5 27 }

/-- The word that holds the fields (R70). -/
def Fields.word (f : Fields) : Word := f.res ++ BitVec.ofBool f.bufp ++ f.op

/-- An operation that has no buffer: BUFP must be 0 (R73). -/
def withoutBuffer (f : Fields) (i : Instr) : Except Illegal Instr :=
  if f.bufp then .error (.bufpNotAllowed f.op) else .ok i

/-- The operation that fields select (R74). -/
def decodeFields (f : Fields) : Except Illegal Instr :=
  if f.res ≠ 0 then .error .reservedBits
  else if f.op = 1 then .ok (.crc16 f.bufp)
  else if f.op = 2 then .ok (.crc32 f.bufp)
  else if f.op = 3 then withoutBuffer f .gcd
  else if f.op = 4 then withoutBuffer f .grayenc
  else if f.op = 5 then withoutBuffer f .graydec
  else if f.op = 6 then withoutBuffer f .isqrt
  else .error (.reservedOp f.op)

/-- The decode function of R74. -/
def decode (v : Word) : Except Illegal Instr := decodeFields (fieldsOf v)

/-- The OP code of an operation (R71). -/
def Instr.op : Instr → BitVec 4
  | .crc16 _ => 1
  | .crc32 _ => 2
  | .gcd => 3
  | .grayenc => 4
  | .graydec => 5
  | .isqrt => 6

/-- The BUFP bit of a command: 0 for an operation without a buffer (R73). -/
def Instr.bufp : Instr → Bool
  | .crc16 p => p
  | .crc32 p => p
  | .gcd => false
  | .grayenc => false
  | .graydec => false
  | .isqrt => false

/-- The fields of a command's word. -/
def Instr.fields (i : Instr) : Fields := { op := i.op, bufp := i.bufp, res := 0 }

/-- The command word of a command. -/
def encode (i : Instr) : Word := i.fields.word

/-- The byte that lane `j` of a byte-lane bus carries: bits [8j+7:8j] of the register (20_memory.md rule R58). -/
def lane (v : Word) (j : Nat) : Byte := v.extractLsb' (8 * j) 8

/-- The word whose four lanes, lane 0 first, are the given bytes (R58). -/
def wordOfLanes (l0 l1 l2 l3 : Byte) : Word := l3 ++ l2 ++ l1 ++ l0

/-- The decoder on the bits of an opcode-table row: a command word is always 32 bits long (R78), so a number that does not
fit in 32 bits is no command word. -/
def decodeTableWord (nbits w : Nat) : Option Instr :=
  if w % 2 ^ nbits < 2 ^ 32 then (decode (BitVec.ofNat 32 (w % 2 ^ nbits))).toOption else none

end Sys2Proof
end

