-- ==== Sys2Proof/Config.lean ====
section
/-! DEFINITION. What is fixed for a block and its platform (00_scope.md rules R5, R6, R10, R11), and the free values:
constants without a body, so that nothing can be proved of what they are. -/

namespace Sys2Proof

/-- POLY16_SEL, a build-time choice (R5); the encoding is the order of the constructors, 0 and 1. -/
inductive Poly16Sel where
  | modbus | x25
  deriving DecidableEq, Repr

/-- POLY32_SEL, a build-time choice (R6); the encoding is the order of the constructors, 0 and 1. `crc32cAlt` is only a
name for the constant 0xD8018001 (90_conflicts.md C3). -/
inductive Poly32Sel where
  | ieee | crc32cAlt
  deriving DecidableEq, Repr

/-- A run of data addresses, both ends included; it is empty when `last` lies below `first`. -/
structure Region where
  first : Word
  last  : Word
  deriving DecidableEq, Repr

/-- The parameters of a block (the open parameters of 92_eei_decisions.md). They are plain data that the state carries and
no event changes, so that a statement about every state is a statement about every build. `readable` lists the addresses
for which the platform's `Readable : addr32 → Bool` (R11) is true; every such function is some list
(Laws/Memory.lean, `readable_represents`). -/
structure Params where
  poly16Sel : Poly16Sel
  poly32Sel : Poly32Sel
  base      : Word
  readable  : List Region
  deriving DecidableEq, Repr

/-- DESIGN CHOICE (log 3): the build and platform that `State.reset` names. The spec leaves BASE and Readable open and its
own programs use MODBUS and IEEE (95_test_vectors.md §1). No statement rests on this choice. -/
def Params.reference : Params :=
  { poly16Sel := .modbus, poly32Sel := .ieee, base := 0, readable := [⟨0, 0xFFFFFFFF⟩] }

namespace Config

/-! Free values (log 2): what the hidden state holds after a reset event, which R180 leaves unspecified. The argument is
the number of reset events before this one, so two resets may leave different values. -/

/-- `lat_op` after a reset event (R33, R180): any value. -/
opaque freeLatOp : Nat → BitVec 4
/-- `lat_bufp` after a reset event (R33, R180): any value. -/
opaque freeLatBufp : Nat → Bool
/-- `lat_a` after a reset event (R33, R180): any value. -/
opaque freeLatA : Nat → Word
/-- `lat_b` after a reset event (R33, R180): any value. -/
opaque freeLatB : Nat → Word
/-- `lat_len` after a reset event (R33, R180): any value. -/
opaque freeLatLen : Nat → Word
/-- `acc` after a reset event (R34, R180): any value. -/
opaque freeAcc : Nat → Word
/-- `k` after a reset event (R34, R180): any value. -/
opaque freeK : Nat → BitVec 33

end Config

end Sys2Proof
end

