-- ==== Sys2Proof/Machine/State.lean ====
section
/-! DEFINITION. The state of the block and of its surroundings, as plain data (10_state.md §8), why a step can stop, and
the state after reset (70_reset_and_hazards.md rule R180). -/

namespace Sys2Proof.Machine

/-- The value of STATUS.ERRCODE, by name (60_exceptions.md rule R151). Codes 5 to 15 are never produced, so they have no
constructor (93_implementation_defined.md U13). -/
inductive ErrCode where
  | none | illegalOp | busyWrite | range | memFault
  deriving DecidableEq, Repr

/-- The command latch (10_state.md rule R33): what the engine reads instead of A, B and LEN. -/
structure Latch where
  op   : BitVec 4
  bufp : Bool
  a    : Word
  b    : Word
  len  : Word
  deriving DecidableEq, Repr

/-- One atomic event (60_exceptions.md rule R156): an access of the host to the register window, one step of the engine,
a reset, or a write of one byte of the data space by any agent other than the block (20_memory.md rules R52, R67; the
host's `st8` of 30_encoding.md rule R79 is one). Addresses of host accesses are bus addresses: BASE plus the offset. -/
inductive Event where
  | hostWrite (addr : Word) (width : Width) (value : Word)
  | hostRead (addr : Word) (width : Width)
  | engine
  | reset
  | dataWrite (addr : Word) (value : Byte)
  deriving DecidableEq, Repr

/-- What a run records: the engine's reads (20_memory.md rule R52) and the values that host reads returned. -/
inductive Observation where
  | engineRead (addr : Word) (value : Byte)
  | hostRead (addr : Word) (value : Word)
  deriving DecidableEq, Repr

/-- The data space: the bytes that differ from `Memory.unlisted`, by rising address (`Memory.wf` in Ops.lean). -/
abbrev Memory := List Host.Cell

/-- What an address that the list leaves out holds. DESIGN CHOICE (log 4): the contents of the data space are a parameter
of the platform (93_implementation_defined.md U6); every content of the 2^32 bytes is some list. -/
def Memory.unlisted : Byte := 0

/-- The state. The first group is the block's (10_state.md §8), the second what is fixed for a run, the third what lies
around the block. -/
structure State where
  /-- A (R23). -/
  a       : Word
  /-- B (R24). -/
  b       : Word
  /-- LEN (R25). -/
  len     : Word
  /-- RESULT (R26). -/
  result  : Word
  /-- ERRINFO (R28). -/
  errinfo : Word
  /-- STATUS.BUSY (R27). -/
  busy    : Bool
  /-- STATUS.DONE (R27). -/
  done    : Bool
  /-- STATUS.ERR (R27). -/
  err     : Bool
  /-- STATUS.ERRCODE (R27). -/
  errcode : ErrCode
  /-- The command latch (R33). -/
  latch   : Latch
  /-- The engine accumulator; CRC16 uses its low 16 bits (R34). -/
  acc     : Word
  /-- The byte index (R34). -/
  k       : BitVec 33
  /-- The parameters of the build and the platform (00_scope.md R5, R6, R10, R11). -/
  params  : Params
  /-- The data space (20_memory.md R50, R52). -/
  mem     : Memory
  /-- The events to come, the next one first: the order in which the agents act, which the block does not fix
  (60_exceptions.md R164). When none is left only the engine acts. -/
  pending : List Event
  /-- What the run has recorded, the newest first (20_memory.md R52). -/
  history : List Observation
  /-- The MODEL's own: how many reset events have drawn free values (log 2). -/
  resets  : Nat
  deriving DecidableEq, Repr

/-- The machine stops with one of these. Neither is in the spec: no state that a run reaches can raise them
(Safety.lean's invariant rules them out), and both are safe. -/
inductive Fault where
  /-- Raised by the engine's completion step when `lat_op` holds no operation's code: R162 says no such value can be
  latched. Safe: the model stops. -/
  | noSuchOperation (op : BitVec 4)
  /-- Raised by the engine's byte step when `lat_b + k` is no 32-bit address: the range rule R56 keeps every issued command
  from it. Safe: the model stops. -/
  | addressPastTop (addr : Nat)
  deriving DecidableEq, Repr

/-- The model gives the step no meaning. -/
inductive Refusal where
  /-- Raised by no arm of this model: every operation has its meaning. -/
  | notModelled (mnemonic : String)
  /-- Raised by a host access inside the register window that is not a 32-bit access at a multiple of 4: R21 and R59 say a
  model refuses it. Safe: the model stops. -/
  | notAWordAccess (addr : Word) (width : Width)
  /-- Raised by a host access at an address outside the 64 bytes of the register window, which is no access to the block
  (R20). Safe: the model stops. -/
  | outsideWindow (addr : Word)
  deriving DecidableEq, Repr

/-- The latch that `State.reset` holds. DESIGN CHOICE (log 1): R180 leaves it unspecified. -/
def Latch.zero : Latch := { op := 0, bufp := false, a := 0, b := 0, len := 0 }

/-- The block right after reset (R180), for any build and platform, with any contents of the data space. -/
def State.resetWith (p : Params) (m : Memory) : State :=
  { a := 0, b := 0, len := 0, result := 0, errinfo := 0
    busy := false, done := false, err := false, errcode := .none
    latch := Latch.zero, acc := 0, k := 0
    params := p, mem := m, pending := [], history := [], resets := 0 }

/-- The machine right after reset. -/
def State.reset : State := State.resetWith Params.reference []

end Sys2Proof.Machine
end

