-- ==== Sys2Proof/Machine/Flags.lean ====
section
/-! DEFINITION. STATUS and its flags (10_state.md rules R27, R32), recording an error and clearing it (60_exceptions.md
rules R157, R159). Recording is what this block has in the place of an exception entry (R167), and the clear is its only
return from one (R159). No operation sets a flag from its result (R32). -/

namespace Sys2Proof.Machine

/-- The code of an error in STATUS.ERRCODE (R151). -/
def ErrCode.code : ErrCode → BitVec 4
  | .none => 0
  | .illegalOp => 1
  | .busyWrite => 2
  | .range => 3
  | .memFault => 4

/-- The value of STATUS (R27): bits 31:8 reserved, ERRCODE in 7:4, bit 3 reserved, ERR, DONE, BUSY. -/
def statusWord (s : State) : Word :=
  (0 : BitVec 24) ++ s.errcode.code ++ (0 : BitVec 1) ++ BitVec.ofBool s.err ++ BitVec.ofBool s.done ++ BitVec.ofBool s.busy

/-- `raise Error(code, info)` (R157): the first error since ERR was last 0 is recorded, a later one is not. -/
def raiseError (code : ErrCode) (info : Word) (s : State) : State :=
  if s.err then s else { s with err := true, errcode := code, errinfo := info }

/-- Clear the recorded error (R159). -/
def clearError (s : State) : State := { s with err := false, errcode := .none, errinfo := 0 }

/-- A host write to STATUS (R27): bit 2 clears the recorded error, every other bit is ignored, in either phase. -/
def writeStatus (v : Word) (s : State) : State := if v.getLsbD 2 then clearError s else s

/-- Every command write made while BUSY = 0 clears DONE first (R32, R160). -/
def clearDone (s : State) : State := { s with done := false }

/-- ILLEGAL_OP (R152), raised by a write of the illegal word `v` to CMD while BUSY = 0. -/
def illegalOp (v : Word) (s : State) : State := raiseError .illegalOp v (clearDone s)

/-- BUSY_WRITE (R153), raised by a write to the register at `offset` while BUSY = 1. -/
def busyWrite (offset : Word) (s : State) : State := raiseError .busyWrite offset s

/-- RANGE (R154), raised by a CRC command write whose buffer passes the top of the data space. -/
def rangeError (s : State) : State := raiseError .range s.b (clearDone s)

/-- MEM_FAULT (R155), raised by the engine at an address it may not read; the command is abandoned. -/
def memFault (addr : Word) (s : State) : State :=
  { raiseError .memFault addr s with busy := false, done := false }

end Sys2Proof.Machine
end

