-- ==== Sys2Proof/Machine/Operands.lean ====
section
/-! DEFINITION. The parameters and operands as the operations read them (00_scope.md rules R7, R11, 30_encoding.md rules
R75, R76, 20_memory.md rules R55, R56). -/

namespace Sys2Proof.Machine

/-- POLY16 (R7). -/
def poly16 (p : Params) : Half :=
  match p.poly16Sel with
  | .modbus => 0xA001
  | .x25 => 0x8408

/-- POLY32 (R7). -/
def poly32 (p : Params) : Word :=
  match p.poly32Sel with
  | .ieee => 0xEDB88320
  | .crc32cAlt => 0xD8018001

/-- CONFIG.P16 (10_state.md rule R29). -/
def p16Bit (p : Params) : Bool :=
  match p.poly16Sel with
  | .modbus => false
  | .x25 => true

/-- CONFIG.P32 (10_state.md rule R29). -/
def p32Bit (p : Params) : Bool :=
  match p.poly32Sel with
  | .ieee => false
  | .crc32cAlt => true

/-- The identity string of the block (00_scope.md rule R2). -/
def identity (p : Params) : String :=
  "ETUDE-CORE/P16=" ++ (match p.poly16Sel with | .modbus => "MODBUS" | .x25 => "X25") ++
  "/P32=" ++ (match p.poly32Sel with | .ieee => "IEEE" | .crc32cAlt => "CRC32C_ALT")

/-- The region holds the address. -/
def inRegion (r : Region) (addr : Word) : Bool :=
  r.first.toNat ≤ addr.toNat && addr.toNat ≤ r.last.toNat

/-- `Readable(addr)` (R11): the platform's verdict on an engine read. -/
def isReadable (p : Params) (addr : Word) : Bool := p.readable.any fun r => inRegion r addr

/-- The low half of a value, zero-extended: how CRC16 reads its accumulator and writes its result (R76). -/
def lowHalf (v : Word) : Word := (v.setWidth 16).setWidth 32

/-- The CRC-16 accumulator as CRC16 reads it from A: bits 15:0, in 32 bits (R76). -/
def crc16Operand (s : State) : Word := lowHalf s.a

/-- The CRC-32 accumulator as CRC32 reads it from A: all 32 bits (R75). -/
def crc32Operand (s : State) : Word := s.a

/-- The buffer of a CRC command passes the top of the data space (R56): the sum is exact, and a buffer that ends at
0xFFFFFFFF fits. -/
def bufferPastTop (bufp : Bool) (s : State) : Bool :=
  bufp && decide (0 < s.len.toNat) && decide (2 ^ 32 < s.b.toNat + s.len.toNat)

/-- The effective address of the next byte of the running command, an exact integer (R55). -/
def bufferAddress (s : State) : Nat := s.latch.b.toNat + s.k.toNat

end Sys2Proof.Machine
end

