-- ==== Sys2Proof/Machine/Ops.lean ====
section
/-! DEFINITION. The named operations over memory and registers: the data space, the register window, issuing a command,
and reset. -/

namespace Sys2Proof.Machine

/-! ## The data space (20_memory.md) -/

/-- The list holds addresses from `lo` on, strictly rising, below 2^32, and no byte that an unlisted address holds. -/
def Memory.wfFrom : Nat → Memory → Bool
  | _, [] => true
  | lo, (a, v) :: m => decide (lo ≤ a) && decide (a < 2 ^ 32) && decide (v ≠ Memory.unlisted) && wfFrom (a + 1) m

/-- The canonical form: equal contents are equal lists. -/
def Memory.wf (m : Memory) : Bool := m.wfFrom 0

/-- The byte the data space holds at an address (R52). -/
def Memory.read : Memory → Nat → Byte
  | [], _ => Memory.unlisted
  | (a, v) :: m, addr => if a = addr then v else read m addr

/-- A cell in front of the list, left out when it holds what an unlisted address holds. -/
def Memory.cons (addr : Nat) (v : Byte) (m : Memory) : Memory :=
  if v = Memory.unlisted then m else (addr, v) :: m

/-- One byte of the data space changed. The block never does this (R54): the platform's agents do (R52, R67). -/
def Memory.write : Memory → Nat → Byte → Memory
  | [], addr, v => Memory.cons addr v []
  | (a, w) :: m, addr, v =>
    if addr < a then Memory.cons addr v ((a, w) :: m)
    else if addr = a then Memory.cons addr v m
    else (a, w) :: write m addr v

/-- A write of one byte by an agent other than the block (R52, R65, R67). -/
def dataWrite (addr : Word) (v : Byte) (s : State) : State := { s with mem := s.mem.write addr.toNat v }

/-! ## The register window (10_state.md) -/

/-- The byte offset of a register from BASE (R20); for `reserved` the first of its offsets. -/
def regOffset : Reg → Word
  | .cmd => 0x00
  | .a => 0x04
  | .b => 0x08
  | .len => 0x0C
  | .result => 0x10
  | .status => 0x14
  | .errinfo => 0x18
  | .config => 0x1C
  | .poly16 => 0x20
  | .poly32 => 0x24
  | .reserved => 0x28

/-- The register at a byte offset that is a multiple of 4 below 0x40 (R20). -/
def regAt (offset : Nat) : Reg :=
  match offset with
  | 0x00 => .cmd
  | 0x04 => .a
  | 0x08 => .b
  | 0x0C => .len
  | 0x10 => .result
  | 0x14 => .status
  | 0x18 => .errinfo
  | 0x1C => .config
  | 0x20 => .poly16
  | 0x24 => .poly32
  | _ => .reserved

/-- The bus address of a register (R10, R20). -/
def regAddress (p : Params) (r : Reg) : Word := p.base + regOffset r

/-- Which register a host access reaches (R20, R21, R59). DESIGN CHOICE (log 6): an access outside the window is refused. -/
def access (p : Params) (addr : Word) (w : Width) : Except Refusal Reg :=
  let offset := (addr - p.base).toNat
  if 0x40 ≤ offset then .error (.outsideWindow addr)
  else if w ≠ .word ∨ offset % 4 ≠ 0 then .error (.notAWordAccess addr w)
  else .ok (regAt offset)

/-- CONFIG (R29): P16 in bit 0, P32 in bit 1, the rest reserved. -/
def configWord (p : Params) : Word := (0 : BitVec 30) ++ BitVec.ofBool (p32Bit p) ++ BitVec.ofBool (p16Bit p)

/-- The value of a register as the host reads it (R20 to R31). -/
def readReg (r : Reg) (s : State) : Word :=
  match r with
  | .cmd => 0
  | .a => s.a
  | .b => s.b
  | .len => s.len
  | .result => s.result
  | .status => statusWord s
  | .errinfo => s.errinfo
  | .config => configWord s.params
  | .poly16 => (poly16 s.params).setWidth 32
  | .poly32 => poly32 s.params
  | .reserved => 0

/-- A host read (R21, R61): the value goes to the run's record, and no register changes. -/
def hostRead (addr : Word) (w : Width) (s : State) : Host.Outcome State Fault Refusal :=
  match access s.params addr w with
  | .error r => .refused r
  | .ok r => .next { s with history := .hostRead addr (readReg r s) :: s.history }

/-- A host write to A (R23). -/
def writeA (v : Word) (s : State) : State :=
  if s.busy then busyWrite (regOffset .a) s else { s with a := v }

/-- A host write to B (R24). -/
def writeB (v : Word) (s : State) : State :=
  if s.busy then busyWrite (regOffset .b) s else { s with b := v }

/-- A host write to LEN (R25). -/
def writeLen (v : Word) (s : State) : State :=
  if s.busy then busyWrite (regOffset .len) s else { s with len := v }

/-! ## Issue (60_exceptions.md rule R160) -/

/-- Load the latch, start the byte index at 0 and set BUSY. -/
def latchCommand (op : BitVec 4) (bufp : Bool) (s : State) : State :=
  { s with latch := { op := op, bufp := bufp, a := s.a, b := s.b, len := s.len }, k := 0, busy := true }

/-- A command write of a legal word: BUSY_WRITE while BUSY = 1 (R153); otherwise DONE is cleared and `go` follows. -/
def commandWrite (go : State → State) (s : State) : Host.Outcome State Fault Refusal :=
  if s.busy then .next (busyWrite (regOffset .cmd) s) else .next (go (clearDone s))

/-- Issue of an operation without a buffer. R160 leaves `acc` as it is. -/
def issuePlain (op : BitVec 4) (s : State) : Host.Outcome State Fault Refusal :=
  commandWrite (latchCommand op false) s

/-- Issue of a CRC whose accumulator starts at `acc0`: RANGE where the buffer does not fit (R154). -/
def issueCrc (op : BitVec 4) (bufp : Bool) (acc0 : Word) (s : State) : Host.Outcome State Fault Refusal :=
  commandWrite (fun t => if bufferPastTop bufp t then rangeError t else { latchCommand op bufp t with acc := acc0 }) s

/-! ## Reset (70_reset_and_hazards.md) -/

/-- The reset event (R180, R181): the registers take their reset values, a running command is abandoned, and the
parameters, the data space, the record and the events to come stay. The hidden state takes free values (log 2). -/
def resetEvent (s : State) : State :=
  { State.resetWith s.params s.mem with
    latch := { op := Config.freeLatOp s.resets, bufp := Config.freeLatBufp s.resets, a := Config.freeLatA s.resets
               b := Config.freeLatB s.resets, len := Config.freeLatLen s.resets }
    acc := Config.freeAcc s.resets, k := Config.freeK s.resets
    pending := s.pending, history := s.history, resets := s.resets + 1 }

end Sys2Proof.Machine
end

