-- ==== Sys2Proof/Machine/Crc.lean ====
section
/-! DEFINITION. The CRC family (40_crc.md): the table generator, the fold, the whole-command functions, and the commands
CRC16 and CRC32. One definition serves both widths, as in the spec. -/

namespace Sys2Proof.Machine

/-- The generator step (R100). -/
def gstep {w : Nat} (poly c : BitVec w) : BitVec w :=
  if c.getLsbD 0 then (c >>> 1) ^^^ poly else c >>> 1

/-- The generator step, `n` times. -/
def gsteps {w : Nat} (poly : BitVec w) : Nat → BitVec w → BitVec w
  | 0, c => c
  | n + 1, c => gsteps poly n (gstep poly c)

/-- Entry `i` of the table of a polynomial: exactly 8 generator steps from the value `i` (R101; 90_conflicts.md C1). -/
def tableEntry {w : Nat} (poly : BitVec w) (i : Byte) : BitVec w := gsteps poly 8 (i.setWidth w)

/-- T16 (10_state.md rule R35). -/
def t16 (p : Params) (i : Byte) : Half := tableEntry (poly16 p) i

/-- T32 (10_state.md rule R35). -/
def t32 (p : Params) (i : Byte) : Word := tableEntry (poly32 p) i

/-- One fold of a byte into the CRC-16 accumulator (R102). -/
def fold16 (p : Params) (acc : Half) (byte : Byte) : Half :=
  (acc >>> 8) ^^^ t16 p ((acc ^^^ byte.setWidth 16).setWidth 8)

/-- One fold of a byte into the CRC-32 accumulator (R102). -/
def fold32 (p : Params) (acc : Word) (byte : Byte) : Word :=
  (acc >>> 8) ^^^ t32 p ((acc ^^^ byte.setWidth 32).setWidth 8)

/-- The CRC-16 loop over a byte list (R105's `crcseq_16`). -/
def crcSeq16 (p : Params) (a : Half) (bytes : List Byte) : Half := bytes.foldl (fold16 p) a

/-- The CRC-32 loop over a byte list (R105's `crcseq_32`). -/
def crcSeq32 (p : Params) (a : Word) (bytes : List Byte) : Word := bytes.foldl (fold32 p) a

/-- The bytes of a buffer, in ascending address order (R54). -/
def bufferBytes (m : Memory) (b : Word) (len : Word) : List Byte :=
  (List.range len.toNat).map fun k => m.read (b.toNat + k)

/-- The whole-command function `crc_16` (40_crc.md §3) on an unchanging data space. -/
def crc16 (p : Params) (a : Half) (bufp : Bool) (b len : Word) (m : Memory) : Half :=
  if bufp then crcSeq16 p a (bufferBytes m b len) else a

/-- The whole-command function `crc_32` (40_crc.md §3) on an unchanging data space. -/
def crc32 (p : Params) (a : Word) (bufp : Bool) (b len : Word) (m : Memory) : Word :=
  if bufp then crcSeq32 p a (bufferBytes m b len) else a

/-- The engine's update of `acc` by one byte for CRC16: the low 16 bits, zero-extended (60_exceptions.md rule R161). -/
def crc16Update (p : Params) (acc : Word) (byte : Byte) : Word := (fold16 p (acc.setWidth 16) byte).setWidth 32

/-- The engine's update of `acc` by one byte for CRC32 (60_exceptions.md rule R161). -/
def crc32Update (p : Params) (acc : Word) (byte : Byte) : Word := fold32 p acc byte

/-- The result of a CRC16 command (60_exceptions.md rule R162). -/
def crc16Result (s : State) : Word := lowHalf s.acc

/-- The result of a CRC32 command (60_exceptions.md rule R162). -/
def crc32Result (s : State) : Word := s.acc

/-- The command write of CRC16 (R103). -/
def execCrc16 (bufp : Bool) (s : State) : Host.Outcome State Fault Refusal := issueCrc 1 bufp (crc16Operand s) s

/-- The command write of CRC32 (R104). -/
def execCrc32 (bufp : Bool) (s : State) : Host.Outcome State Fault Refusal := issueCrc 2 bufp (crc32Operand s) s

end Sys2Proof.Machine
end

