-- ==== Sys2Proof/Machine/Gcd.lean ====
section
/-! DEFINITION. The GCD unit (41_gcd.md). -/

namespace Sys2Proof.Machine

/-- The trailing zero bits among the low `n` bits of a value. -/
def trailingZeros {w : Nat} : Nat → BitVec w → Nat
  | 0, _ => 0
  | n + 1, v => if v.getLsbD 0 then 0 else trailingZeros n (v >>> 1) + 1

/-- `ctz32` (00_scope.md rule R13), applied to non-zero values only. -/
def ctz32 (v : Word) : Nat := trailingZeros 32 v

/-- A value without its trailing zero bits. -/
def strip (v : Word) : Word := v >>> ctz32 v

/-- The loop of R110. The first argument bounds the passes: after the first pass the product of the two values at least
halves in each, so 65 passes end it for every input. -/
def gcdLoop : Nat → Word → Word → Word
  | 0, u, _ => u
  | n + 1, u, v =>
    let v := strip v
    let lo := if v < u then v else u
    let hi := if v < u then u else v
    if hi - lo = 0 then lo else gcdLoop n lo (hi - lo)

/-- `gcd32` (R110). -/
def gcd32 (u v : Word) : Word :=
  if u = 0 ∨ v = 0 then u ||| v else gcdLoop 66 (strip u) v <<< ctz32 (u ||| v)

/-- The result of a GCD command (60_exceptions.md rule R162). -/
def gcdResult (s : State) : Word := gcd32 s.latch.a s.latch.b

/-- The command write of GCD (R111). -/
def execGcd (s : State) : Host.Outcome State Fault Refusal := issuePlain 3 s

end Sys2Proof.Machine
end

