-- ==== Sys2Proof/Machine/Gray.lean ====
section
/-! DEFINITION. The Gray-code unit (42_gray.md). -/

namespace Sys2Proof.Machine

/-- `grayEncode` (R120). -/
def grayEncode (u : Word) : Word := u ^^^ (u >>> 1)

/-- One step of the decoder's cascade. -/
def xorShift (n : Nat) (u : Word) : Word := u ^^^ (u >>> n)

/-- `grayDecode` (R120): the cascade 1, 2, 4, 8, 16. -/
def grayDecode (u : Word) : Word := xorShift 16 (xorShift 8 (xorShift 4 (xorShift 2 (xorShift 1 u))))

/-- The result of a GRAYENC command (60_exceptions.md rule R162). -/
def grayencResult (s : State) : Word := grayEncode s.latch.a

/-- The result of a GRAYDEC command (60_exceptions.md rule R162). -/
def graydecResult (s : State) : Word := grayDecode s.latch.a

/-- The command write of GRAYENC (R121). -/
def execGrayenc (s : State) : Host.Outcome State Fault Refusal := issuePlain 4 s

/-- The command write of GRAYDEC (R122). -/
def execGraydec (s : State) : Host.Outcome State Fault Refusal := issuePlain 5 s

end Sys2Proof.Machine
end

