-- ==== Sys2Proof/Machine/Isqrt.lean ====
section
/-! DEFINITION. The integer square-root unit (43_isqrt.md). -/

namespace Sys2Proof.Machine

/-- The loop `while one != 0` of R130, which returns the root. The first argument bounds the passes: `one` is a power of 4
below 2^32, so 16 end it. -/
def isqrtLoop : Nat → Word → Word → Word → Word
  | 0, _, res, _ => res
  | n + 1, op, res, one =>
    if one = 0 then res
    else if res ||| one ≤ op then isqrtLoop n (op - (res ||| one)) ((res >>> 1) ||| one) (one >>> 2)
    else isqrtLoop n op (res >>> 1) (one >>> 2)

/-- The loop `while one > op` of R130, which returns the first probe bit. -/
def isqrtSkip : Nat → Word → Word → Word
  | 0, _, one => one
  | n + 1, op, one => if op < one then isqrtSkip n op (one >>> 2) else one

/-- The highest even bit of a word, where the probe starts (R130). -/
def isqrtTop : Word := 1 <<< 30

/-- `isqrt` (R130). -/
def isqrt (value : Word) : Word := isqrtLoop 16 value 0 (isqrtSkip 16 value isqrtTop)

/-- `isqrt` without the loop that R130 calls optional. -/
def isqrtWithoutSkip (value : Word) : Word := isqrtLoop 16 value 0 isqrtTop

/-- The result of an ISQRT command (60_exceptions.md rule R162). -/
def isqrtResult (s : State) : Word := isqrt s.latch.a

/-- The command write of ISQRT (R131). -/
def execIsqrt (s : State) : Host.Outcome State Fault Refusal := issuePlain 6 s

end Sys2Proof.Machine
end

