-- ==== Sys2Proof/Machine/Engine.lean ====
section
/-! DEFINITION. The engine: the byte step, the completion step, and which of the two is enabled (60_exceptions.md rules
R161 to R164). -/

namespace Sys2Proof.Machine

/-- `lat_op` holds a CRC. -/
def crcLatched (s : State) : Bool := s.latch.op == 1 || s.latch.op == 2

/-- The byte step is enabled (R161). -/
def byteStepEnabled (s : State) : Bool :=
  s.busy && crcLatched s && s.latch.bufp && decide (s.k.toNat < s.latch.len.toNat)

/-- The accumulator after the byte (R161). -/
def accAfter (byte : Byte) (s : State) : Word :=
  if s.latch.op = 1 then crc16Update s.params s.acc byte else crc32Update s.params s.acc byte

/-- The byte step's effect where the address is Readable: one read, recorded, and one fold (R52, R161). -/
def foldByte (addr : Word) (s : State) : State :=
  let byte := s.mem.read addr.toNat
  { s with acc := accAfter byte s, k := s.k + 1, history := .engineRead addr byte :: s.history }

/-- The byte step (R161). -/
def byteStep (s : State) : Host.Outcome State Fault Refusal :=
  let addr := bufferAddress s
  if 2 ^ 32 ≤ addr then .fault (.addressPastTop addr)
  else if isReadable s.params (BitVec.ofNat 32 addr) then .next (foldByte (BitVec.ofNat 32 addr) s)
  else .next (memFault (BitVec.ofNat 32 addr) s)

/-- The result of the running command (R162); no operation has another code. -/
def commandResult (s : State) : Option Word :=
  if s.latch.op = 1 then some (crc16Result s)
  else if s.latch.op = 2 then some (crc32Result s)
  else if s.latch.op = 3 then some (gcdResult s)
  else if s.latch.op = 4 then some (grayencResult s)
  else if s.latch.op = 5 then some (graydecResult s)
  else if s.latch.op = 6 then some (isqrtResult s)
  else none

/-- RESULT written, BUSY cleared and DONE set at once (R163). -/
def complete (r : Word) (s : State) : State := { s with result := r, busy := false, done := true }

/-- The completion step (R163). -/
def completionStep (s : State) : Host.Outcome State Fault Refusal :=
  match commandResult s with
  | some r => .next (complete r s)
  | none => .fault (.noSuchOperation s.latch.op)

/-- One step of the engine: none while BUSY = 0, otherwise the one that is enabled (R164). -/
def engineStep (s : State) : Host.Outcome State Fault Refusal :=
  if s.busy then (if byteStepEnabled s then byteStep s else completionStep s) else .next s

end Sys2Proof.Machine
end

