-- ==== Sys2Proof/Machine/Dispatch.lean ====
section
/-! DEFINITION. The command write of each operation: one arm per constructor of Instr. -/

namespace Sys2Proof.Machine

def exec (i : Instr) (s : State) : Host.Outcome State Fault Refusal :=
  match i with
  | .crc16 bufp => Sys2Proof.Machine.execCrc16 bufp s
  | .crc32 bufp => Sys2Proof.Machine.execCrc32 bufp s
  | .gcd => Sys2Proof.Machine.execGcd s
  | .grayenc => Sys2Proof.Machine.execGrayenc s
  | .graydec => Sys2Proof.Machine.execGraydec s
  | .isqrt => Sys2Proof.Machine.execIsqrt s

end Sys2Proof.Machine
end

