-- ==== Sys2Proof/Machine/Events.lean ====
section
/-! DEFINITION. What each event does: a host access to the register window (10_state.md), an engine step, a reset, a write
of the data space. -/

namespace Sys2Proof.Machine

/-- A host write of `v` to CMD (R22). The checks come in the order of 60_exceptions.md rule R156: BUSY, then the word,
then, in the command's meaning, the range. -/
def writeCmd (v : Word) (s : State) : Host.Outcome State Fault Refusal :=
  if s.busy then .next (busyWrite (regOffset .cmd) s)
  else
    match decode v with
    | .error _ => .next (illegalOp v s)
    | .ok i => exec i s

/-- A host write to a register (R21 to R31): read-only and reserved registers ignore it. -/
def writeReg (r : Reg) (v : Word) (s : State) : Host.Outcome State Fault Refusal :=
  match r with
  | .cmd => writeCmd v s
  | .a => .next (writeA v s)
  | .b => .next (writeB v s)
  | .len => .next (writeLen v s)
  | .status => .next (writeStatus v s)
  | .result => .next s
  | .errinfo => .next s
  | .config => .next s
  | .poly16 => .next s
  | .poly32 => .next s
  | .reserved => .next s

/-- A host write (R20, R21). -/
def hostWrite (addr : Word) (w : Width) (v : Word) (s : State) : Host.Outcome State Fault Refusal :=
  match access s.params addr w with
  | .error r => .refused r
  | .ok r => writeReg r v s

/-- The effect of one event, atomic (R156). -/
def perform (e : Event) (s : State) : Host.Outcome State Fault Refusal :=
  match e with
  | .hostWrite addr w v => hostWrite addr w v s
  | .hostRead addr w => hostRead addr w s
  | .engine => engineStep s
  | .reset => .next (resetEvent s)
  | .dataWrite addr v => .next (dataWrite addr v s)

end Sys2Proof.Machine
end

