-- ==== Sys2Proof/Machine/Step.lean ====
section
/-! DEFINITION. One step: the next event to come, or, when none is left, the engine alone. The block has no program
counter and fetches nothing (10_state.md rule R36): a command arrives as a host write to CMD. -/

namespace Sys2Proof.Machine

/-- One step. With no event to come the engine runs its command to the end, since every issued command ends, and an idle
block stays as it is (60_exceptions.md rules R164, R173). -/
def step (s : State) : Host.Outcome State Fault Refusal :=
  match s.pending with
  | [] => engineStep s
  | e :: rest => perform e { s with pending := rest }

/-- The same state with a host write of the word to CMD as its next event. -/
def State.withFetchWord (s : State) (nbits w : Nat) : State :=
  { s with pending := .hostWrite (regAddress s.params .cmd) .word (BitVec.ofNat 32 (w % 2 ^ nbits)) :: s.pending }

end Sys2Proof.Machine
end

