-- ==== Sys2Proof/Machine/Program.lean ====
section
/-! DEFINITION. The host's notation (30_encoding.md rules R79, R80): the statements that touch the block or the data space,
and the pseudo-instructions, as the events they are. Variables, arithmetic and control flow are the host's own (R79), so a
program stands here as the events of one of its runs; how often the engine acts between two reads of a `wait` is the
schedule's choice (60_exceptions.md rule R164) and is an argument. -/

namespace Sys2Proof.Machine

/-- The primitive statements, and the host's own byte store (R79). -/
inductive Stmt where
  | wr (r : Reg) (v : Word)
  | rd (r : Reg)
  | cmd (word : Word)
  | st8 (addr v : Word)
  deriving DecidableEq, Repr

/-- The event of a statement (R79): `cmd` is a write to CMD, `st8` stores the low byte. -/
def Stmt.event (p : Params) : Stmt → Event
  | .wr r v => .hostWrite (regAddress p r) .word v
  | .rd r => .hostRead (regAddress p r) .word
  | .cmd word => .hostWrite (regAddress p .cmd) .word word
  | .st8 addr v => .dataWrite addr (v.setWidth 8)

/-- `clrerr` (R80). -/
def clrerr (p : Params) : List Event := [(Stmt.wr .status 4).event p]

/-- `wait` (R80), as one schedule: before each read of STATUS the engine takes the given number of steps. The loop ends at
the first read that shows BUSY = 0; the list has one number for each read the loop makes. -/
def wait (p : Params) (schedule : List Nat) : List Event :=
  schedule.flatMap fun n => List.replicate n .engine ++ [(Stmt.rd .status).event p]

/-- The end of every pseudo-instruction of R80: `cmd <word> ; wait ; rd RESULT`. -/
def cmdWaitRead (p : Params) (i : Instr) (schedule : List Nat) : List Event :=
  (Stmt.cmd (encode i)).event p :: (wait p schedule ++ [(Stmt.rd .result).event p])

/-- `crc16 <acc>, <buf>, <len>`; without a buffer `<len>` is not written (R80). -/
def pseudoCrc16 (p : Params) (acc : Word) (buf : Option Word) (len : Word) (schedule : List Nat) : List Event :=
  match buf with
  | some b => [(Stmt.wr .a acc).event p, (Stmt.wr .b b).event p, (Stmt.wr .len len).event p] ++
      cmdWaitRead p (.crc16 true) schedule
  | none => (Stmt.wr .a acc).event p :: cmdWaitRead p (.crc16 false) schedule

/-- `crc32 <acc>, <buf>, <len>`; without a buffer `<len>` is not written (R80). -/
def pseudoCrc32 (p : Params) (acc : Word) (buf : Option Word) (len : Word) (schedule : List Nat) : List Event :=
  match buf with
  | some b => [(Stmt.wr .a acc).event p, (Stmt.wr .b b).event p, (Stmt.wr .len len).event p] ++
      cmdWaitRead p (.crc32 true) schedule
  | none => (Stmt.wr .a acc).event p :: cmdWaitRead p (.crc32 false) schedule

/-- `gcd <u>, <v>` (R80). -/
def pseudoGcd (p : Params) (u v : Word) (schedule : List Nat) : List Event :=
  [(Stmt.wr .a u).event p, (Stmt.wr .b v).event p] ++ cmdWaitRead p .gcd schedule

/-- `grayenc <u>` (R80). -/
def pseudoGrayenc (p : Params) (u : Word) (schedule : List Nat) : List Event :=
  (Stmt.wr .a u).event p :: cmdWaitRead p .grayenc schedule

/-- `graydec <u>` (R80). -/
def pseudoGraydec (p : Params) (u : Word) (schedule : List Nat) : List Event :=
  (Stmt.wr .a u).event p :: cmdWaitRead p .graydec schedule

/-- `isqrt <u>` (R80). -/
def pseudoIsqrt (p : Params) (u : Word) (schedule : List Nat) : List Event :=
  (Stmt.wr .a u).event p :: cmdWaitRead p .isqrt schedule

end Sys2Proof.Machine
end

