-- ==== Sys2Proof/Safety.lean ====
section
/-! DEFINITION. The terms of the statements: the invariant of the block, what a safe run is, what a run has read, and when
two states differ only in hidden state that nothing reads. -/

namespace Sys2Proof.Machine

/-- The eight legal command words (30_encoding.md rule R74). -/
def legalWords : List Word := [0x01, 0x11, 0x02, 0x12, 0x03, 0x04, 0x05, 0x06]

/-- The same state with one more event, to come first. -/
def State.withEvent (s : State) (e : Event) : State := { s with pending := e :: s.pending }

/-- The host write of a word to CMD, at BASE. -/
def cmdEvent (p : Params) (v : Word) : Event := .hostWrite (p.base + 0x00) .word v

/-- The state after an event that raises an error, as R157 says: the first error is recorded and a later one is not. -/
def State.withError (s : State) (code : ErrCode) (info : Word) : State :=
  { s with err := true
           errcode := if s.err then s.errcode else code
           errinfo := if s.err then s.errinfo else info }

/-- The accumulator after issue (R160): only a CRC sets it. -/
def issuedAcc (i : Instr) (s : State) : Word :=
  match i with
  | .crc16 _ => BitVec.ofNat 32 (s.a.toNat % 2 ^ 16)
  | .crc32 _ => s.a
  | .gcd => s.acc
  | .grayenc => s.acc
  | .graydec => s.acc
  | .isqrt => s.acc

/-- The state after the issue of a command (60_exceptions.md rule R160). -/
def issued (i : Instr) (s : State) : State :=
  { s with done := false, busy := true, k := 0, acc := issuedAcc i s
           latch := { op := i.op, bufp := i.bufp, a := s.a, b := s.b, len := s.len } }

/-- The state after the completion of a command with the given result (60_exceptions.md rule R163). -/
def completed (r : Word) (s : State) : State := { s with result := r, busy := false, done := true }

/-- The command's buffer passes the top of the data space (20_memory.md rule R56). -/
def PastTop (i : Instr) (s : State) : Prop :=
  (i = .crc16 true ∨ i = .crc32 true) ∧ 0 < s.len.toNat ∧ 2 ^ 32 < s.b.toNat + s.len.toNat

/-- How many bytes a command reads where nothing stops it (20_memory.md rule R51). -/
def bytesToRead (i : Instr) (s : State) : Nat :=
  match i with
  | .crc16 p => if p then s.len.toNat else 0
  | .crc32 p => if p then s.len.toNat else 0
  | .gcd => 0
  | .grayenc => 0
  | .graydec => 0
  | .isqrt => 0

/-- Every byte of the buffer is Readable (00_scope.md rule R11). -/
def BufferReadable (i : Instr) (s : State) : Prop :=
  ∀ k < bytesToRead i s, isReadable s.params (BitVec.ofNat 32 (s.b.toNat + k)) = true

/-- The records of the first `n` reads of a buffer at `b` on an unchanging data space, newest first. -/
def readRecords (m : Memory) (b : Word) (n : Nat) : List Observation :=
  ((List.range n).map fun k => Observation.engineRead (BitVec.ofNat 32 (b.toNat + k)) (m.read (b.toNat + k))).reverse

/-! ## The invariant -/

/-- What holds of the hidden state while a command runs (10_state.md rules R33, R34, 20_memory.md rule R55). -/
structure State.Running (s : State) : Prop where
  legal   : ({ op := s.latch.op, bufp := s.latch.bufp, res := 0 } : Fields).wf = true
  latA    : s.latch.a = s.a
  latB    : s.latch.b = s.b
  latLen  : s.latch.len = s.len
  fits    : s.latch.bufp = true → 0 < s.latch.len.toNat → s.latch.b.toNat + s.latch.len.toNat ≤ 2 ^ 32
  index   : s.k.toNat ≤ s.latch.len.toNat
  noIndex : s.latch.bufp = false → s.k = 0
  acc16   : s.latch.op = 1 → s.acc.toNat < 2 ^ 16

/-- The invariant of the block: BUSY and DONE are never both 1, ERRCODE is non-zero exactly when ERR is 1, and ERRINFO is
what R28 says it is (10_state.md rules R27, R28), for RANGE a B that some LEN takes past 2^32, so 2 or more; the data space keeps its form; a running command is one that was
issued. -/
structure State.Inv (s : State) : Prop where
  busyDone    : s.busy = true → s.done = false
  errCode     : s.err = true ↔ s.errcode ≠ .none
  infoNone    : s.errcode = .none → s.errinfo = 0
  infoIllegal : s.errcode = .illegalOp → ∃ why, decode s.errinfo = .error why
  infoBusy    : s.errcode = .busyWrite → s.errinfo ∈ ([0x00, 0x04, 0x08, 0x0C] : List Word)
  infoRange   : s.errcode = .range → 2 ≤ s.errinfo.toNat
  infoFault   : s.errcode = .memFault → isReadable s.params s.errinfo = false
  memWf       : s.mem.wf = true
  running     : s.busy = true → s.Running

/-! ## What a command has read -/

/-- The engine's reads in a record, newest first. -/
def engineReads (h : List Observation) : List (Word × Byte) :=
  h.filterMap fun o =>
    match o with
    | .engineRead addr v => some (addr, v)
    | .hostRead _ _ => none

/-- The last `k` engine reads, oldest first: those of the running command. -/
def State.commandReads (s : State) : List (Word × Byte) := ((engineReads s.history).take s.k.toNat).reverse

/-- The accumulator of the running CRC after the given bytes (40_crc.md rules R103, R104). -/
def foldedAcc (s : State) (bytes : List Byte) : Word :=
  if s.latch.op = 1 then (crcSeq16 s.params (s.latch.a.setWidth 16) bytes).setWidth 32
  else crcSeq32 s.params s.latch.a bytes

/-- A running CRC has read the first `k` bytes of its buffer, each once and in ascending order (20_memory.md rules R51,
R54), and its accumulator is the fold of the bytes those reads returned, whatever other agents wrote meanwhile (R67). -/
def State.FoldsReads (s : State) : Prop :=
  s.busy = true → crcLatched s = true →
    s.commandReads.map Prod.fst = (List.range s.k.toNat).map (fun i => BitVec.ofNat 32 (s.latch.b.toNat + i)) ∧
    s.acc = foldedAcc s (s.commandReads.map Prod.snd)

/-- The host's reads in a record and what they returned, newest first. -/
def hostReads (h : List Observation) : List (Word × Word) :=
  h.filterMap fun o =>
    match o with
    | .engineRead _ _ => none
    | .hostRead addr v => some (addr, v)

/-! ## Whose step the next one is -/

/-- The next step is the engine's: no event is to come, or an engine event is the next. -/
def EngineActs (s : State) : Prop := s.pending = [] ∨ ∃ rest, s.pending = .engine :: rest

/-- The engine's next step is a byte step at an address that is not Readable, the cause of MEM_FAULT (60_exceptions.md rule
R155). -/
def AtUnreadableByte (s : State) : Prop :=
  byteStepEnabled s = true ∧
    ∃ addr : Word, addr.toNat = s.latch.b.toNat + s.k.toNat ∧ isReadable s.params addr = false

/-! ## Safe runs -/

/-- The event is one the interface gives a meaning (10_state.md rule R21): a host access is a word access inside the
window. -/
def eventAllowed (p : Params) (e : Event) : Bool :=
  match e with
  | .hostWrite addr w _ => (access p addr w).toBool
  | .hostRead addr w => (access p addr w).toBool
  | .engine => true
  | .reset => true
  | .dataWrite _ _ => true

/-- The host makes only accesses that the interface gives a meaning. -/
def State.AllowedSchedule (s : State) : Prop := ∀ e ∈ s.pending, eventAllowed s.params e = true

/-- A run of `n` steps that no fault and no refusal ends. -/
def SafeRun (n : Nat) (s : State) : Prop := ∃ t : State, Host.Core.run Sys2Proof.core n s = .next t

/-! ## Hidden state -/

/-- The two states differ at most in the latch, the accumulator and the byte index. -/
def SameOutside (s t : State) : Prop := { s with latch := t.latch, acc := t.acc, k := t.k } = t

/-- The outcome is the given next state, but for the latch, the accumulator and the byte index, of which nothing is said: the
spec leaves them unspecified once BUSY = 0 (10_state.md rules R33, R34). -/
def NextUpToHidden (o : Host.Outcome State Fault Refusal) (t : State) : Prop := ∃ u, o = .next u ∧ SameOutside u t

/-- The two states differ only in hidden state that nothing reads (10_state.md rules R33, R34): all of it while BUSY = 0,
and the accumulator while an operation other than a CRC runs. -/
def Agree (s t : State) : Prop :=
  SameOutside s t ∧
  (s.busy = true → s.latch = t.latch ∧ s.k = t.k ∧ (crcLatched s = true → s.acc = t.acc))

/-- Two outcomes that cannot be told apart. -/
def OutcomesAgree (x y : Host.Outcome State Fault Refusal) : Prop :=
  match x, y with
  | .next s, .next t => Agree s t
  | .fault f, .fault g => f = g
  | .refused p, .refused q => p = q
  | _, _ => False

end Sys2Proof.Machine
end

