-- ==== Sys2Proof/Certificates/Slice0/Obligations.lean ====
section
/-! DEFINITION. The statements for the provers, each from the spec's rules. `s.withEvent e` is `s` with the event `e` to
come next, `issued i s` the state after the issue of a command, `s.withError code info` the state after an error. -/

open Sys2Proof Sys2Proof.Machine

/-! ## Encoding -/

/-- A word is the command word of a command exactly when it decodes to it, whatever the 2^32 words (R70 to R74). -/
def Obligations.DecodeAcceptsExactlyTheEncodings : Prop :=
  ∀ (v : Word) (i : Instr), decode v = .ok i ↔ v = encode i

/-- The decode function (R74): the eight legal words and what each is, every other word rejected. -/
def Obligations.DecodeFollowsTheTable : Prop :=
  decode 0x00000001 = .ok (.crc16 false) ∧ decode 0x00000011 = .ok (.crc16 true) ∧
  decode 0x00000002 = .ok (.crc32 false) ∧ decode 0x00000012 = .ok (.crc32 true) ∧
  decode 0x00000003 = .ok .gcd ∧ decode 0x00000004 = .ok .grayenc ∧
  decode 0x00000005 = .ok .graydec ∧ decode 0x00000006 = .ok .isqrt ∧
  ∀ v : Word, v ∉ legalWords → ∃ why, decode v = .error why

/-- The illegal space (R77) and what writing a word of it does: nothing is issued and ERRINFO records the word. -/
def Obligations.IllegalSpaceIsNeverIssued : Prop :=
  (∀ v : Word, v ∉ legalWords ↔
    (v.toNat % 16 = 0 ∨ 7 ≤ v.toNat % 16) ∨ v.toNat / 32 ≠ 0 ∨
    ((3 ≤ v.toNat % 16 ∧ v.toNat % 16 ≤ 6) ∧ v.toNat / 16 % 2 = 1)) ∧
  ∀ (s : State) (v : Word), v ∉ legalWords → s.busy = false →
    step (s.withEvent (cmdEvent s.params v)) = .next ({ s with done := false }.withError .illegalOp v)

/-- A set bit of RES makes a word illegal whatever its OP and BUFP are (R72). -/
def Obligations.ReservedBitsAreIllegal : Prop :=
  ∀ v : Word, 32 ≤ v.toNat → decode v = .error .reservedBits

/-- Words written out from the encodings of 30_encoding.md, legal and illegal. -/
def Obligations.WordsWrittenOutDecode : Prop :=
  decode 0b00000000000000000000000000000001 = .ok (.crc16 false) ∧
  decode 0b00000000000000000000000000010010 = .ok (.crc32 true) ∧
  decode 0b00000000000000000000000000000011 = .ok .gcd ∧
  decode 0b00000000000000000000000000000100 = .ok .grayenc ∧
  decode 0b00000000000000000000000000000101 = .ok .graydec ∧
  decode 0b00000000000000000000000000000110 = .ok .isqrt ∧
  decode 0b00000000000000000000000000010011 = .error (.bufpNotAllowed 3) ∧
  decode 0b00000000000000000000000000000000 = .error (.reservedOp 0) ∧
  decode 0b00000000000000000000000000000111 = .error (.reservedOp 7) ∧
  decode 0b00000000000000000000000000100001 = .error .reservedBits ∧
  decode 0b10000000000000000000000000000001 = .error .reservedBits

/-- A step whose event writes a command's word to CMD runs that command, on the state without the event. -/
def Obligations.StepRunsTheDecodedCommand : Prop :=
  (∀ (s : State) (v : Word) (i : Instr) (rest : List Event),
    s.pending = cmdEvent s.params v :: rest → decode v = .ok i → step s = exec i { s with pending := rest }) ∧
  ∀ (s : State) (w : Nat) (i : Instr), decodeTableWord 32 w = some i → step (s.withFetchWord 32 w) = exec i s

/-- With no event to come a step is the engine's; an engine event is one engine step; an idle engine takes none, so an idle
block stays as it is (R38, R164, R173). -/
def Obligations.EngineActsOnlyWhileBusy : Prop :=
  (∀ s : State, s.pending = [] → step s = engineStep s) ∧
  (∀ s : State, step (s.withEvent .engine) = engineStep s) ∧
  ∀ s : State, s.busy = false → engineStep s = .next s

/-! ## The command write -/

/-- BUSY_WRITE (R153): a write to CMD, A, B or LEN while BUSY = 1 is dropped and recorded with its offset; a write to STATUS
or to a read-only or reserved offset is none. -/
def Obligations.WriteWhileBusy : Prop :=
  (∀ (s : State) (v off : Word), s.busy = true → off ∈ ([0x00, 0x04, 0x08, 0x0C] : List Word) →
    step (s.withEvent (.hostWrite (s.params.base + off) .word v)) = .next (s.withError .busyWrite off)) ∧
  (∀ (s : State) (v : Word), s.busy = true →
    step (s.withEvent (.hostWrite (s.params.base + 0x14) .word v)) =
      .next (if v.getLsbD 2 then { s with err := false, errcode := .none, errinfo := 0 } else s)) ∧
  ∀ (s : State) (v off : Word), s.busy = true → off.toNat % 4 = 0 → 0x10 ≤ off.toNat → off ≠ 0x14 → off.toNat < 0x40 →
    step (s.withEvent (.hostWrite (s.params.base + off) .word v)) = .next s

/-- Where the range rule applies and where not (R56): a buffer that ends at 0xFFFFFFFF is legal, and with BUFP = 0 or
LEN = 0 whatever B holds. -/
def Obligations.RangeRuleAppliesExactlyPastTheTop : Prop :=
  ∀ (s : State) (i : Instr), i.op = 1 ∨ i.op = 2 → s.busy = false →
    (i.bufp = true ∧ 0 < s.len.toNat ∧ 2 ^ 32 < s.b.toNat + s.len.toNat →
      exec i s = .next ({ s with done := false }.withError .range s.b)) ∧
    (i.bufp = false ∨ s.len = 0 ∨ s.b.toNat + s.len.toNat ≤ 2 ^ 32 → exec i s = .next (issued i s))

/-- What a write of any word to CMD does while BUSY = 0 (R160), with the checks in the spec's order: ILLEGAL_OP (R152),
RANGE (R154), or the issue; and that it changes nothing else. -/
def Obligations.IssueFollowsTheRule : Prop :=
  ∀ (s : State) (v : Word), s.busy = false →
    (∀ why, decode v = .error why →
      step (s.withEvent (cmdEvent s.params v)) = .next ({ s with done := false }.withError .illegalOp v)) ∧
    ∀ i, decode v = .ok i →
      (PastTop i s →
        step (s.withEvent (cmdEvent s.params v)) = .next ({ s with done := false }.withError .range s.b)) ∧
      (¬ PastTop i s → step (s.withEvent (cmdEvent s.params v)) = .next (issued i s))

/-- Every one of the six commands completes its command write: from every state with BUSY = 0 whose buffer, if the command
has one, fits. -/
def Obligations.EveryCommandIssues : Prop :=
  ∀ (i : Instr) (s : State), s.busy = false → ¬ PastTop i s → exec i s = .next (issued i s)

/-- The frame of every command write: whatever its outcome, it changes no operand register, not RESULT, no parameter, no
byte of the data space and no record; and where the command is issued no error state. -/
def Obligations.CommandWriteFrame : Prop :=
  ∀ (i : Instr) (s t : State), exec i s = .next t →
    t.a = s.a ∧ t.b = s.b ∧ t.len = s.len ∧ t.result = s.result ∧ t.params = s.params ∧ t.pending = s.pending ∧
    t.history = s.history ∧ t.resets = s.resets ∧ (∀ addr, t.mem.read addr = s.mem.read addr) ∧
    (s.busy = false → t.done = false) ∧ (s.busy = true → t.done = s.done) ∧
    (s.busy = false → ¬ PastTop i s → t.err = s.err ∧ t.errcode = s.errcode ∧ t.errinfo = s.errinfo) ∧
    (s.busy = true ∨ PastTop i s → t.busy = s.busy ∧ t.latch = s.latch ∧ t.acc = s.acc ∧ t.k = s.k)

/-! ## The engine -/

/-- The byte step (R161), where it is enabled: the address is below 2^32, as R56 ensures for an issued command. A read and fold
changes nothing else. A MEM_FAULT changes no register beyond those named; of the hidden state after it nothing is said. -/
def Obligations.ByteStepFollowsTheRule : Prop :=
  ∀ s : State, s.busy = true → s.latch.op = 1 ∨ s.latch.op = 2 → s.latch.bufp = true → s.k.toNat < s.latch.len.toNat →
    ∀ addr : Word, addr.toNat = s.latch.b.toNat + s.k.toNat →
      (isReadable s.params addr = false →
        NextUpToHidden (engineStep s) { s.withError .memFault addr with busy := false, done := false }) ∧
      (isReadable s.params addr = true →
        engineStep s = .next { s with
          acc := if s.latch.op = 1 then (fold16 s.params (s.acc.setWidth 16) (s.mem.read addr.toNat)).setWidth 32
                 else fold32 s.params s.acc (s.mem.read addr.toNat)
          k := s.k + 1
          history := .engineRead addr (s.mem.read addr.toNat) :: s.history })

/-- The completion step (R163) and the result of each operation (R162). It changes nothing else; of the hidden state after it
nothing is said. -/
def Obligations.CompletionFollowsTheRule : Prop :=
  ∀ s : State, s.busy = true →
    ((s.latch.op ≠ 1 ∧ s.latch.op ≠ 2) ∨ s.latch.bufp = false ∨ s.latch.len.toNat ≤ s.k.toNat) →
    (s.latch.op = 1 → NextUpToHidden (engineStep s) (completed (BitVec.ofNat 32 (s.acc.toNat % 2 ^ 16)) s)) ∧
    (s.latch.op = 2 → NextUpToHidden (engineStep s) (completed s.acc s)) ∧
    (s.latch.op = 3 → NextUpToHidden (engineStep s) (completed (gcd32 s.latch.a s.latch.b) s)) ∧
    (s.latch.op = 4 → NextUpToHidden (engineStep s) (completed (grayEncode s.latch.a) s)) ∧
    (s.latch.op = 5 → NextUpToHidden (engineStep s) (completed (grayDecode s.latch.a) s)) ∧
    (s.latch.op = 6 → NextUpToHidden (engineStep s) (completed (isqrt s.latch.a) s))

/-- The frame of an engine step: no operand register, no parameter and no byte of the data space changes, and at most one read
is recorded, of the next byte of the buffer (R33, R51, R54). The last clause and, where the step ends the command, the one
before it are the model's choice, log entry 7 (DEDUCED): the latch stays, and a step that reads nothing leaves `acc` and `k`,
though R33 and R34 leave all three unspecified once BUSY = 0. -/
def Obligations.EngineStepFrame : Prop :=
  ∀ s t : State, engineStep s = .next t →
    t.a = s.a ∧ t.b = s.b ∧ t.len = s.len ∧ t.params = s.params ∧ t.pending = s.pending ∧
    t.resets = s.resets ∧ (∀ addr, t.mem.read addr = s.mem.read addr) ∧
    (t.history = s.history ∨
      (s.busy = true ∧ s.latch.bufp = true ∧ (s.latch.op = 1 ∨ s.latch.op = 2) ∧ s.k.toNat < s.latch.len.toNat ∧
        t.history = .engineRead (BitVec.ofNat 32 (s.latch.b.toNat + s.k.toNat))
          (s.mem.read (s.latch.b.toNat + s.k.toNat)) :: s.history)) ∧
    t.latch = s.latch ∧ (t.history = s.history → t.acc = s.acc ∧ t.k = s.k)

/-- Every issued command ends: left to the engine, after at most one byte step for each byte still to read and one
completion step (R164). -/
def Obligations.EveryIssuedCommandEnds : Prop :=
  ∀ s : State, s.Inv → s.busy = true → s.pending = [] →
    ∃ n t, n ≤ s.latch.len.toNat - s.k.toNat + 1 ∧ Host.Core.run Sys2Proof.core n s = .next t ∧
      State.busy t = false ∧ ((s.latch.bufp = false → n = 1))

/-! ## The operations -/

/-- GCD (R111): its encoding, its issue and completion, its interface errors, and the rule's corner cases. Of the
hidden state after completion nothing is said. -/
def Obligations.GcdCommandFollowsTheRule : Prop :=
  (∀ v : Word, decode v = .ok .gcd ↔ v = 0x00000003) ∧ (∃ why, decode 0x00000013 = .error why) ∧
  (∀ s : State, s.busy = false → exec .gcd s = .next (issued .gcd s) ∧
    NextUpToHidden (engineStep (issued .gcd s)) (completed (gcd32 s.a s.b) (issued .gcd s))) ∧
  (∀ s : State, s.busy = true → exec .gcd s = .next (s.withError .busyWrite 0x00)) ∧
  gcd32 0 0 = 0 ∧ (∀ v, gcd32 0 v = v) ∧ (∀ u, gcd32 u 0 = u) ∧ gcd32 0xFFFFFFFF 0xFFFFFFFF = 0xFFFFFFFF ∧
  gcd32 0x80000000 0x80000000 = 0x80000000 ∧ (∀ u, gcd32 u u = u) ∧ (∀ v, v ≠ 0 → gcd32 1 v = 1) ∧ gcd32 8 12 = 4

/-- GRAYENC (R121): its encoding, its issue and completion, its interface errors, and the rule's corner cases. Of the
hidden state after completion nothing is said. -/
def Obligations.GrayencCommandFollowsTheRule : Prop :=
  (∀ v : Word, decode v = .ok .grayenc ↔ v = 0x00000004) ∧ (∃ why, decode 0x00000014 = .error why) ∧
  (∀ s : State, s.busy = false → exec .grayenc s = .next (issued .grayenc s) ∧
    NextUpToHidden (engineStep (issued .grayenc s)) (completed (s.a ^^^ (s.a >>> 1)) (issued .grayenc s))) ∧
  (∀ s : State, s.busy = true → exec .grayenc s = .next (s.withError .busyWrite 0x00)) ∧
  grayEncode 0 = 0 ∧ grayEncode 0xFFFFFFFF = 0x80000000 ∧ grayEncode 0x80000000 = 0xC0000000 ∧
  grayEncode 0x7FFFFFFF = 0x40000000 ∧ grayEncode 2 = 3 ∧ ∀ u, (grayEncode u).getLsbD 31 = u.getLsbD 31

/-- GRAYDEC (R122): its encoding, its issue and completion, its interface errors, and the rule's corner cases. Of the
hidden state after completion nothing is said. -/
def Obligations.GraydecCommandFollowsTheRule : Prop :=
  (∀ v : Word, decode v = .ok .graydec ↔ v = 0x00000005) ∧ (∃ why, decode 0x00000015 = .error why) ∧
  (∀ s : State, s.busy = false → exec .graydec s = .next (issued .graydec s) ∧
    NextUpToHidden (engineStep (issued .graydec s)) (completed (grayDecode s.a) (issued .graydec s))) ∧
  (∀ s : State, s.busy = true → exec .graydec s = .next (s.withError .busyWrite 0x00)) ∧
  grayDecode 0 = 0 ∧ grayDecode 0x80000000 = 0xFFFFFFFF ∧ grayDecode 0xFFFFFFFF = 0xAAAAAAAA ∧ grayDecode 1 = 1 ∧
  grayDecode 3 = 2

/-- ISQRT (R131): its encoding, its issue and completion, its result's width, its interface errors, and the rule's corner
cases. Of the hidden state after completion nothing is said. -/
def Obligations.IsqrtCommandFollowsTheRule : Prop :=
  (∀ v : Word, decode v = .ok .isqrt ↔ v = 0x00000006) ∧ (∃ why, decode 0x00000016 = .error why) ∧
  (∀ s : State, s.busy = false → exec .isqrt s = .next (issued .isqrt s) ∧
    NextUpToHidden (engineStep (issued .isqrt s)) (completed (isqrt s.a) (issued .isqrt s))) ∧
  (∀ s : State, s.busy = true → exec .isqrt s = .next (s.withError .busyWrite 0x00)) ∧
  (∀ v, (isqrt v).toNat ≤ 0xFFFF) ∧
  isqrt 0 = 0 ∧ isqrt 1 = 1 ∧ isqrt 2 = 1 ∧ isqrt 3 = 1 ∧ isqrt 4 = 2 ∧ isqrt 0xFFFE0000 = 0xFFFE ∧
  isqrt 0xFFFE0001 = 0xFFFF ∧ isqrt 0xFFFE0002 = 0xFFFF ∧ isqrt 0xFFFFFFFF = 0xFFFF ∧ isqrt 87539319 = 9356

/-- A CRC16 or CRC32 command, left to the engine, ends with RESULT = the whole-command function of 40_crc.md §3 on its
operands, having read exactly its buffer in ascending order (R51, R54, R103, R104). -/
def Obligations.CrcCommandComputesItsBuffer : Prop :=
  ∀ (s : State) (i : Instr), i.op = 1 ∨ i.op = 2 → s.busy = false → s.pending = [] → ¬ PastTop i s → BufferReadable i s →
    ∃ t : State,
      Host.Core.run Sys2Proof.core (bytesToRead i s + 2) (s.withEvent (cmdEvent s.params (encode i))) = .next t ∧
      t.busy = false ∧ t.done = true ∧ t.err = s.err ∧ t.errcode = s.errcode ∧ t.errinfo = s.errinfo ∧
      (i.op = 1 → t.result = (crc16 s.params (s.a.setWidth 16) i.bufp s.b s.len s.mem).setWidth 32) ∧
      (i.op = 2 → t.result = crc32 s.params s.a i.bufp s.b s.len s.mem) ∧
      t.a = s.a ∧ t.b = s.b ∧ t.len = s.len ∧ t.mem = s.mem ∧
      t.history = readRecords s.mem s.b (bytesToRead i s) ++ s.history

/-- A CRC command stops at the lowest address of its buffer that is not Readable, after reading the bytes below it and no
other (R53, R155, R156). -/
def Obligations.CrcStopsAtTheLowestUnreadableByte : Prop :=
  ∀ (s : State) (i : Instr) (j : Nat), i.op = 1 ∨ i.op = 2 → s.busy = false → s.pending = [] → ¬ PastTop i s →
    j < bytesToRead i s → (∀ k < j, isReadable s.params (BitVec.ofNat 32 (s.b.toNat + k)) = true) →
    isReadable s.params (BitVec.ofNat 32 (s.b.toNat + j)) = false →
    ∃ t : State, Host.Core.run Sys2Proof.core (j + 2) (s.withEvent (cmdEvent s.params (encode i))) = .next t ∧
      t.busy = false ∧ t.done = false ∧ t.err = true ∧
      (s.err = false → t.errcode = .memFault ∧ t.errinfo = BitVec.ofNat 32 (s.b.toNat + j)) ∧
      (s.err = true → t.errcode = s.errcode ∧ t.errinfo = s.errinfo) ∧ t.result = s.result ∧ t.mem = s.mem ∧
      t.history = readRecords s.mem s.b j ++ s.history

/-- The no-op law (R107): a CRC without a buffer, or with LEN = 0, completes with its accumulator and reads nothing. -/
def Obligations.CrcWithoutBytesReturnsItsAccumulator : Prop :=
  ∀ s : State, s.busy = false → s.pending = [] → ∀ i : Instr, i.op = 1 ∨ i.op = 2 → i.bufp = false ∨ s.len = 0 →
    ∃ t : State, Host.Core.run Sys2Proof.core 2 (s.withEvent (cmdEvent s.params (encode i))) = .next t ∧
      t.busy = false ∧ t.done = true ∧ t.history = s.history ∧
      (i.op = 1 → t.result = BitVec.ofNat 32 (s.a.toNat % 2 ^ 16)) ∧ (i.op = 2 → t.result = s.a)

/-- A completed CRC's RESULT is the fold of the bytes its reads returned, and those reads are its buffer's, each once and in
ascending order, whatever other agents wrote while it ran (R54, R67, R103, R104). -/
def Obligations.CompletedCrcIsTheFoldOfTheBytesRead : Prop :=
  ∀ s t : State, s.Inv → s.FoldsReads → s.busy = true → crcLatched s = true → s.latch.bufp = true →
    engineStep s = .next t → t.done = true →
    s.commandReads.map Prod.fst = (List.range s.latch.len.toNat).map (fun i => BitVec.ofNat 32 (s.latch.b.toNat + i)) ∧
    t.result = foldedAcc s (s.commandReads.map Prod.snd)

/-- The chaining law (R105). -/
def Obligations.CrcChains : Prop :=
  (∀ (p : Params) (a : Half) (x y : List Byte), crcSeq16 p (crcSeq16 p a x) y = crcSeq16 p a (x ++ y)) ∧
  ∀ (p : Params) (a : Word) (x y : List Byte), crcSeq32 p (crcSeq32 p a x) y = crcSeq32 p a (x ++ y)

/-- The residue law (R106): appending the accumulator, low byte first, gives 0, for every build. -/
def Obligations.CrcResidueIsZero : Prop :=
  (∀ (p : Params) (a : Half) (m : List Byte),
    crcSeq16 p a (m ++ [(crcSeq16 p a m).setWidth 8, ((crcSeq16 p a m) >>> 8).setWidth 8]) = 0) ∧
  ∀ (p : Params) (a : Word) (m : List Byte),
    crcSeq32 p a (m ++ [(crcSeq32 p a m).setWidth 8, ((crcSeq32 p a m) >>> 8).setWidth 8,
      ((crcSeq32 p a m) >>> 16).setWidth 8, ((crcSeq32 p a m) >>> 24).setWidth 8]) = 0

/-- The table entries that R101 lists, for each of the four polynomials, and T[0] = 0 for every build. -/
def Obligations.TablesHoldTheListedEntries : Prop :=
  (∀ p : Params, p.poly16Sel = .modbus →
    t16 p 0x01 = 0xC0C1 ∧ t16 p 0x02 = 0xC181 ∧ t16 p 0x80 = 0xA001 ∧ t16 p 0xFF = 0x4040) ∧
  (∀ p : Params, p.poly16Sel = .x25 →
    t16 p 0x01 = 0x1189 ∧ t16 p 0x02 = 0x2312 ∧ t16 p 0x80 = 0x8408 ∧ t16 p 0xFF = 0x0F78) ∧
  (∀ p : Params, p.poly32Sel = .ieee →
    t32 p 0x01 = 0x77073096 ∧ t32 p 0x02 = 0xEE0E612C ∧ t32 p 0x80 = 0xEDB88320 ∧ t32 p 0xFF = 0x2D02EF8D) ∧
  (∀ p : Params, p.poly32Sel = .crc32cAlt →
    t32 p 0x01 = 0x90910101 ∧ t32 p 0x02 = 0x91210201 ∧ t32 p 0x80 = 0xD8018001 ∧ t32 p 0xFF = 0x7070FF00) ∧
  ∀ p : Params, t16 p 0 = 0 ∧ t32 p 0 = 0

/-- The CRC check values of the source (95_test_vectors.md §1, S6 to S9). -/
def Obligations.SourceCheckValues : Prop :=
  ∀ p : Params, p.poly16Sel = .modbus → p.poly32Sel = .ieee →
    crcSeq16 p 0xFFFF [0x02, 0x07] = 0x1241 ∧ crcSeq16 p 0xFFFF [0x02, 0x07, 0x41, 0x12] = 0 ∧
    crcSeq16 p 0xFFFF [0x31, 0x32, 0x33, 0x34, 0x35, 0x36, 0x37, 0x38, 0x39] ^^^ 0xFFFF = 0xB4C8 ∧
    crcSeq32 p 0xFFFFFFFF [0x31, 0x32, 0x33, 0x34, 0x35, 0x36, 0x37, 0x38, 0x39] ^^^ 0xFFFFFFFF = 0xCBF43926

/-- The value of the binary GCD algorithm is the greatest common divisor, 0 for two zeros (R110). -/
def Obligations.BinaryGcdIsTheGcd : Prop :=
  ∀ u v : Word, (gcd32 u v).toNat = Nat.gcd u.toNat v.toNat

/-- The laws of the GCD (R112). -/
def Obligations.GcdLaws : Prop :=
  ∀ a b : Word, gcd32 a b = gcd32 b a ∧
    (gcd32 a b ≠ 0 → (gcd32 a b).toNat ∣ a.toNat ∧ (gcd32 a b).toNat ∣ b.toNat) ∧
    (gcd32 a b).toNat ≤ max a.toNat b.toNat ∧ (gcd32 a b = 0 ↔ a = 0 ∧ b = 0)

/-- Gray decode and encode are inverse, so both are bijections (R123). -/
def Obligations.GrayCodesAreInverse : Prop :=
  (∀ u : Word, grayDecode (grayEncode u) = u) ∧ (∀ u : Word, grayEncode (grayDecode u) = u) ∧
  Function.Bijective grayEncode ∧ Function.Bijective grayDecode

/-- Bit `i` of the decoded value is the XOR of the bits `i` to 31, and the five shifts give the same value in every order
(R120). -/
def Obligations.GrayDecodeBitIsTheXorOfTheBitsAbove : Prop :=
  (∀ (g : Word) (i : Nat), i < 32 →
    (grayDecode g).getLsbD i = ((List.range (32 - i)).map fun j => g.getLsbD (i + j)).foldl Bool.xor false) ∧
  ∀ order : List Nat, order.Perm [1, 2, 4, 8, 16] → ∀ g : Word, order.foldl (fun u n => xorShift n u) g = grayDecode g

/-- The adjacency law (R124): neighbours, the wrap pair among them, differ in exactly one bit. -/
def Obligations.GrayNeighboursDifferInOneBit : Prop :=
  (∀ u : Word, ∃ i, i < 32 ∧ grayEncode u ^^^ grayEncode (u - 1) = BitVec.twoPow 32 i) ∧
  grayEncode 0 ^^^ grayEncode 0xFFFFFFFF = 0x80000000

/-- The square-root law (R132), with exact arithmetic, for every input. -/
def Obligations.IsqrtIsTheFloorOfTheRoot : Prop :=
  ∀ v : Word, (isqrt v).toNat * (isqrt v).toNat ≤ v.toNat ∧ v.toNat < ((isqrt v).toNat + 1) * ((isqrt v).toNat + 1)

/-- Leaving out the loop that skips probe bits gives the same result for every input (R130). -/
def Obligations.IsqrtSkipLoopChangesNothing : Prop :=
  ∀ v : Word, isqrt v = isqrtWithoutSkip v

/-! ## Registers, STATUS and errors -/

/-- A recorded error stays, with its code and its information, until the host clears it or a reset (R27, R157). -/
def Obligations.ErrorIsStickyUntilCleared : Prop :=
  ∀ s t : State, step s = .next t → s.err = true → (∀ rest, s.pending ≠ .reset :: rest) →
    (∀ v rest, s.pending = .hostWrite (s.params.base + 0x14) .word v :: rest → v.getLsbD 2 = false) →
    t.err = true ∧ t.errcode = s.errcode ∧ t.errinfo = s.errinfo

/-- The clear (R159): a write to STATUS with bit 2 set, in either phase, and that it changes nothing else; without bit 2 it
changes nothing. -/
def Obligations.StatusWriteClearsTheError : Prop :=
  ∀ (s : State) (v : Word),
    (v.getLsbD 2 = true → step (s.withEvent (.hostWrite (s.params.base + 0x14) .word v)) =
      .next { s with err := false, errcode := .none, errinfo := 0 }) ∧
    (v.getLsbD 2 = false → step (s.withEvent (.hostWrite (s.params.base + 0x14) .word v)) = .next s)

/-- The layout of STATUS (R27) and the error codes (R151), bit by bit. -/
def Obligations.StatusLayout : Prop :=
  (∀ s : State, (statusWord s).getLsbD 0 = s.busy ∧ (statusWord s).getLsbD 1 = s.done ∧
    (statusWord s).getLsbD 2 = s.err ∧ (statusWord s).getLsbD 3 = false ∧
    (statusWord s).extractLsb' 4 4 = s.errcode.code ∧ (statusWord s).toNat < 256) ∧
  ErrCode.code .none = 0 ∧ ErrCode.code .illegalOp = 1 ∧ ErrCode.code .busyWrite = 2 ∧ ErrCode.code .range = 3 ∧
  ErrCode.code .memFault = 4

/-- A host read returns the register at its offset, 0 from CMD and from the reserved offsets, and changes nothing: the value
goes to the run's record (R20, R21, R61). -/
def Obligations.HostReadReturnsTheRegister : Prop :=
  ∀ (s : State) (off : Word), off.toNat % 4 = 0 → off.toNat < 0x40 →
    step (s.withEvent (.hostRead (s.params.base + off) .word)) =
      .next { s with
        history := Observation.hostRead (s.params.base + off) (
          if off = 0x04 then s.a else if off = 0x08 then s.b else if off = 0x0C then s.len
          else if off = 0x10 then s.result else if off = 0x14 then statusWord s else if off = 0x18 then s.errinfo
          else if off = 0x1C then configWord s.params else if off = 0x20 then (poly16 s.params).setWidth 32
          else if off = 0x24 then poly32 s.params else 0) :: s.history }

/-- The values of CONFIG, POLY16 and POLY32 (R29, R30, R31), that a host write to them does nothing, and that no event, a
reset among them, changes them. -/
def Obligations.ConfigurationRegistersAreConstant : Prop :=
  (∀ p : Params, ((configWord p).getLsbD 0 = true ↔ p.poly16Sel = .x25) ∧
    ((configWord p).getLsbD 1 = true ↔ p.poly32Sel = .crc32cAlt) ∧ (configWord p).toNat < 4 ∧
    (p.poly16Sel = .modbus → (poly16 p).setWidth 32 = (0x0000A001 : Word)) ∧
    (p.poly16Sel = .x25 → (poly16 p).setWidth 32 = (0x00008408 : Word)) ∧
    (p.poly32Sel = .ieee → poly32 p = 0xEDB88320) ∧ (p.poly32Sel = .crc32cAlt → poly32 p = 0xD8018001)) ∧
  (∀ (s : State) (v off : Word), off ∈ ([0x1C, 0x20, 0x24] : List Word) →
    step (s.withEvent (.hostWrite (s.params.base + off) .word v)) = .next s) ∧
  ∀ s t : State, step s = .next t → readReg .config t = readReg .config s ∧ readReg .poly16 t = readReg .poly16 s ∧
    readReg .poly32 t = readReg .poly32 s

/-- A host write to A, B or LEN while BUSY = 0 stores the value and changes nothing else (R23, R24, R25). -/
def Obligations.OperandWriteWhileIdle : Prop :=
  ∀ (s : State) (v : Word), s.busy = false →
    step (s.withEvent (.hostWrite (s.params.base + 0x04) .word v)) = .next { s with a := v } ∧
    step (s.withEvent (.hostWrite (s.params.base + 0x08) .word v)) = .next { s with b := v } ∧
    step (s.withEvent (.hostWrite (s.params.base + 0x0C) .word v)) = .next { s with len := v }

/-- A host write to a read-only or reserved offset has no effect and records no error, in either phase (R21). -/
def Obligations.ReadOnlyWriteHasNoEffect : Prop :=
  ∀ (s : State) (v off : Word), off.toNat % 4 = 0 → 0x10 ≤ off.toNat → off ≠ 0x14 → off.toNat < 0x40 →
    step (s.withEvent (.hostWrite (s.params.base + off) .word v)) = .next s

/-- An access inside the window that is no word access, or is misaligned, is refused (R21, R59). -/
def Obligations.OtherAccessesAreRefused : Prop :=
  ∀ (s : State) (v off : Word) (w : Width), off.toNat < 0x40 → w ≠ .word ∨ off.toNat % 4 ≠ 0 →
    step (s.withEvent (.hostWrite (s.params.base + off) w v)) = .refused (.notAWordAccess (s.params.base + off) w) ∧
    step (s.withEvent (.hostRead (s.params.base + off) w)) = .refused (.notAWordAccess (s.params.base + off) w)

/-! ## Reset -/

/-- A reset, at any time (R180, R181): the values the spec gives, a running command abandoned without a result or an error,
and the parameters, the data space and the record of earlier reads kept. Of the hidden state nothing is said. -/
def Obligations.ResetEventGivesTheResetValues : Prop :=
  ∀ s : State, ∃ t, step (s.withEvent .reset) = .next t ∧ t.a = 0 ∧ t.b = 0 ∧ t.len = 0 ∧ t.result = 0 ∧
    statusWord t = 0 ∧ t.busy = false ∧ t.done = false ∧ t.err = false ∧ t.errcode = .none ∧ t.errinfo = 0 ∧
    readReg .config t = readReg .config s ∧ readReg .poly16 t = readReg .poly16 s ∧
    readReg .poly32 t = readReg .poly32 s ∧ (∀ i, t16 t.params i = t16 s.params i ∧ t32 t.params i = t32 s.params i) ∧
    t.params = s.params ∧ t.mem = s.mem ∧ t.history = s.history

/-- The machine after reset, for every build, platform and well-formed data space, meets the invariants; it is idle and
every register reads its reset value (R180). -/
def Obligations.ResetMeetsTheInvariants : Prop :=
  (∀ (p : Params) (m : Memory), m.wf = true →
    (State.resetWith p m).Inv ∧ (State.resetWith p m).FoldsReads ∧ (State.resetWith p m).busy = false ∧
    ∀ r ∈ [Reg.cmd, .a, .b, .len, .result, .status, .errinfo, .reserved], readReg r (State.resetWith p m) = 0) ∧
  State.reset = State.resetWith Params.reference []

/-! ## The whole machine -/

/-- Every step keeps the invariant, from every state that meets it and whatever the event. -/
def Obligations.StepKeepsTheInvariant : Prop :=
  ∀ s t : State, s.Inv → step s = .next t → t.Inv

/-- Every step keeps the record of what a running CRC has read and folded. -/
def Obligations.StepKeepsTheFoldOfTheReads : Prop :=
  ∀ s t : State, s.FoldsReads → step s = .next t → t.FoldsReads

/-- No fault and no refusal ends a run from a state that meets the invariant, if the host makes only accesses that the
interface gives a meaning: no operand value, no word and no time of a write stops the block (R150). -/
def Obligations.AllowedRunsAreSafe : Prop :=
  ∀ s : State, s.Inv → s.AllowedSchedule → ∀ n, SafeRun n s

/-- The hidden state is never read while BUSY = 0, and the accumulator never by an operation other than a CRC: two states
that differ there only stay indistinguishable at every step (R33, R34). -/
def Obligations.HiddenStateIsNeverReadWhileIdle : Prop :=
  (∀ s t : State, Agree s t → OutcomesAgree (step s) (step t)) ∧
  ∀ s t : State, Agree s t → ∀ r, readReg r s = readReg r t

/-- No event changes the build-time choices, BASE or Readable (R5, R6, R11). -/
def Obligations.ParametersNeverChange : Prop :=
  ∀ (n : Nat) (s t : State), Host.Core.run Sys2Proof.core n s = .next t → State.params t = s.params

/-- The block never writes the data space: a byte changes only where another agent writes that byte (R54). And such a write, a
host's `st8` among them, takes effect whatever the block does: the byte reads as written, and nothing else changes (R52, R65,
R79). -/
def Obligations.OnlyOtherAgentsWriteTheDataSpace : Prop :=
  (∀ s t : State, s.mem.wf = true → step s = .next t → ∀ addr : Nat, t.mem.read addr ≠ s.mem.read addr →
    ∃ v rest, s.pending = .dataWrite (BitVec.ofNat 32 addr) v :: rest ∧ addr < 2 ^ 32 ∧ t.mem.read addr = v) ∧
  ∀ (s : State) (addr : Word) (v : Byte), s.mem.wf = true →
    ∃ m : Memory, step (s.withEvent (.dataWrite addr v)) = .next { s with mem := m } ∧ m.wf = true ∧
      ∀ a : Nat, m.read a = if a = addr.toNat then v else s.mem.read a

/-- RESULT changes only in a completion step, which also clears BUSY and sets DONE, and in a reset (R26). -/
def Obligations.OnlyCompletionWritesResult : Prop :=
  ∀ s t : State, step s = .next t → t.result ≠ s.result →
    (s.busy = true ∧ t.busy = false ∧ t.done = true) ∨ (∃ rest, s.pending = .reset :: rest ∧ t.result = 0)

/-- A, B and LEN change only by a host write to that register while BUSY = 0, or in a reset: never by the engine (R23,
R24, R25). -/
def Obligations.OnlyTheHostWritesOperands : Prop :=
  ∀ s t : State, step s = .next t → (∀ rest, s.pending ≠ .reset :: rest) →
    (t.a ≠ s.a → s.busy = false ∧ ∃ rest, s.pending = .hostWrite (s.params.base + 0x04) .word t.a :: rest) ∧
    (t.b ≠ s.b → s.busy = false ∧ ∃ rest, s.pending = .hostWrite (s.params.base + 0x08) .word t.b :: rest) ∧
    (t.len ≠ s.len → s.busy = false ∧ ∃ rest, s.pending = .hostWrite (s.params.base + 0x0C) .word t.len :: rest)

/-- What sets and clears BUSY and DONE (R32). BUSY rises only by a command write that is issued, and falls only by completion,
MEM_FAULT or reset; DONE rises only by completion, and falls only by a command write made while BUSY = 0, whatever its word,
MEM_FAULT or reset; and each of these three does clear DONE. -/
def Obligations.BusyAndDoneFollowTheCommand : Prop :=
  ∀ s t : State, step s = .next t →
    (s.busy = false → t.busy = true → t.done = false ∧
      ∃ v i rest, s.pending = cmdEvent s.params v :: rest ∧ decode v = .ok i ∧ t = issued i { s with pending := rest }) ∧
    (s.busy = true → t.busy = false →
      (EngineActs s ∧ byteStepEnabled s = false ∧ t.done = true ∧ commandResult s = some t.result) ∨
      (EngineActs s ∧ AtUnreadableByte s ∧ t.done = false ∧ t.err = true) ∨ ∃ rest, s.pending = .reset :: rest) ∧
    (s.done = false → t.done = true →
      EngineActs s ∧ s.busy = true ∧ byteStepEnabled s = false ∧ t.busy = false ∧ commandResult s = some t.result) ∧
    (s.done = true → t.done = false →
      (s.busy = false ∧ ∃ v rest, s.pending = cmdEvent s.params v :: rest) ∨
      (EngineActs s ∧ AtUnreadableByte s ∧ t.busy = false ∧ t.err = true) ∨ ∃ rest, s.pending = .reset :: rest) ∧
    (s.busy = false → (∃ v rest, s.pending = cmdEvent s.params v :: rest) → t.done = false) ∧
    (EngineActs s → AtUnreadableByte s → t.busy = false ∧ t.done = false) ∧
    ((∃ rest, s.pending = .reset :: rest) → t.busy = false ∧ t.done = false)

/-- A write to CMD, A, B or LEN races with the completion of the command that runs, whichever it is, and both outcomes are runs
of the block: before completion the write is dropped and recorded; after it the operand is stored, or the word is decoded,
and turned away or issued. RESULT is the same in both (R153, R164; 95_test_vectors.md P6). Of the hidden state of an idle block
nothing is said. -/
def Obligations.WriteRacesWithCompletion : Prop :=
  ∀ (s : State) (off v r : Word), s.busy = true → byteStepEnabled s = false → commandResult s = some r →
    off ∈ ([0x00, 0x04, 0x08, 0x0C] : List Word) →
    let late : State := { completed r s with pending := [] }
    NextUpToHidden
      (Host.Core.run Sys2Proof.core 2 { s with pending := [.hostWrite (s.params.base + off) .word v, .engine] })
      (late.withError .busyWrite off) ∧
    ∃ t : State,
      Host.Core.run Sys2Proof.core 2 { s with pending := [.engine, .hostWrite (s.params.base + off) .word v] } = .next t ∧
      t.result = r ∧
      (off = 0x04 → SameOutside t { late with a := v }) ∧
      (off = 0x08 → SameOutside t { late with b := v }) ∧
      (off = 0x0C → SameOutside t { late with len := v }) ∧
      (off = 0x00 → ∀ why, decode v = .error why →
        SameOutside t ({ late with done := false }.withError .illegalOp v)) ∧
      (off = 0x00 → ∀ i, decode v = .ok i → PastTop i s →
        SameOutside t ({ late with done := false }.withError .range s.b)) ∧
      (off = 0x00 → ∀ i, decode v = .ok i → ¬ PastTop i s →
        SameOutside t (issued i late) ∧ t.latch = (issued i s).latch ∧ t.k = 0)

/-- A write to a buffer byte races with the engine's read of it: the read returns the old byte or the new one (R67). -/
def Obligations.BufferWriteRacesWithTheRead : Prop :=
  ∀ (s : State) (v : Byte) (addr : Word), s.mem.wf = true → byteStepEnabled s = true →
    addr.toNat = s.latch.b.toNat + s.k.toNat → isReadable s.params addr = true →
    (∃ t : State, Host.Core.run Sys2Proof.core 2 { s with pending := [.engine, .dataWrite addr v] } = .next t ∧
      t.history = .engineRead addr (s.mem.read addr.toNat) :: s.history ∧ t.mem.read addr.toNat = v) ∧
    ∃ t : State, Host.Core.run Sys2Proof.core 2 { s with pending := [.dataWrite addr v, .engine] } = .next t ∧
      t.history = .engineRead addr v :: s.history ∧ t.mem.read addr.toNat = v

/-- The pseudo-instructions (R80), from an idle block, on every schedule of their `wait` loop. The list `front` gives the engine
steps before each read of STATUS that comes too early, `n` those before the last one; a command with `bytes` bytes to read
takes `bytes + 1` engine steps. Every early read shows BUSY = 1 and DONE = 0, the last one BUSY = 0 and DONE = 1, and the read
of RESULT gives the operation's value. With a buffer, it fits, its bytes are Readable and no other agent writes. -/
def Obligations.PseudoInstructionsReadTheResult : Prop :=
  ∀ (s : State) (front : List Nat) (n : Nat), s.busy = false →
    let run (es : List Event) (bytes : Nat) (u r : Word) : Prop :=
      front.sum ≤ bytes → bytes < front.sum + n → ∃ (t : State) (early : List Word) (last : Word),
        Host.Core.run Sys2Proof.core es.length { s with pending := es } = .next t ∧
        hostReads t.history = (s.params.base + 0x10, r) :: (s.params.base + 0x14, last) ::
          (early.map (fun w => (s.params.base + 0x14, w)) ++ hostReads s.history) ∧
        early.length = front.length ∧ (∀ w ∈ early, w.getLsbD 0 = true ∧ w.getLsbD 1 = false) ∧
        last.getLsbD 0 = false ∧ last.getLsbD 1 = true ∧
        t.result = r ∧ t.a = u ∧ t.mem = s.mem ∧ (engineReads t.history).length = bytes + (engineReads s.history).length
    let p := s.params
    let polls := front ++ [n]
    let fits (buf len : Word) : Prop := (len = 0 ∨ buf.toNat + len.toNat ≤ 2 ^ 32) ∧
      ∀ k < len.toNat, isReadable p (BitVec.ofNat 32 (buf.toNat + k)) = true
    (∀ u v, run (pseudoGcd p u v polls) 0 u (gcd32 u v)) ∧
    (∀ u, run (pseudoGrayenc p u polls) 0 u (grayEncode u)) ∧
    (∀ u, run (pseudoGraydec p u polls) 0 u (grayDecode u)) ∧
    (∀ u, run (pseudoIsqrt p u polls) 0 u (isqrt u)) ∧
    (∀ u len, run (pseudoCrc16 p u none len polls) 0 u (BitVec.ofNat 32 (u.toNat % 2 ^ 16))) ∧
    (∀ u len, run (pseudoCrc32 p u none len polls) 0 u u) ∧
    (∀ u buf len, fits buf len → run (pseudoCrc16 p u (some buf) len polls) len.toNat u
      ((crc16 p (u.setWidth 16) true buf len s.mem).setWidth 32)) ∧
    ∀ u buf len, fits buf len → run (pseudoCrc32 p u (some buf) len polls) len.toNat u (crc32 p u true buf len s.mem)

/-- The data space's form is canonical: equal contents are equal data, so writes to different addresses commute and a
second write to an address replaces the first. -/
def Obligations.EqualContentsAreEqualData : Prop :=
  (∀ m m' : Memory, m.wf = true → m'.wf = true → (∀ addr, m.read addr = m'.read addr) → m = m') ∧
  ∀ (m : Memory) (a b : Word) (v w : Byte), m.wf = true →
    (a ≠ b → (m.write a.toNat v).write b.toNat w = (m.write b.toNat w).write a.toNat v) ∧
    (m.write a.toNat v).write a.toNat w = m.write a.toNat w

/-- Lane `j` of a byte-lane bus carries the bits [8j+7:8j] of a register (R58). -/
def Obligations.LanesAreLittleEndian : Prop :=
  (∀ v : Word, wordOfLanes (lane v 0) (lane v 1) (lane v 2) (lane v 3) = v) ∧
  ∀ l0 l1 l2 l3 : Byte, (wordOfLanes l0 l1 l2 l3).toNat =
    l0.toNat + 2 ^ 8 * l1.toNat + 2 ^ 16 * l2.toNat + 2 ^ 24 * l3.toNat
end

