-- ==== Sys2Proof/Laws/State.lean ====
section
/-! SUPPORT. What each update of the state leaves in each field: one lemma per field per update, and the error updates as
one record update each. -/

namespace Sys2Proof.Machine

/-! ## Recording an error is one record update -/

theorem raiseError_eq (code : ErrCode) (info : Word) (s : State) : raiseError code info s = s.withError code info := by
  unfold raiseError State.withError
  cases h : s.err <;> cases s <;> simp_all

theorem busyWrite_eq (off : Word) (s : State) : busyWrite off s = s.withError .busyWrite off := raiseError_eq ..

theorem illegalOp_eq (v : Word) (s : State) :
    illegalOp v s = { s with done := false }.withError .illegalOp v := raiseError_eq ..

theorem rangeError_eq (s : State) : rangeError s = { s with done := false }.withError .range s.b := raiseError_eq ..

theorem memFault_eq (addr : Word) (s : State) :
    memFault addr s = { s.withError .memFault addr with busy := false, done := false } := by
  unfold memFault
  rw [raiseError_eq]

/-! ## Fields after each update -/

@[simp] theorem raiseError_err (code : ErrCode) (info : Word) (s : State) : (raiseError code info s).err = true := by
  rw [raiseError_eq]; rfl
@[simp] theorem clearDone_done (s : State) : (clearDone s).done = false := rfl
@[simp] theorem clearError_err (s : State) : (clearError s).err = false := rfl
@[simp] theorem clearError_errcode (s : State) : (clearError s).errcode = .none := rfl
@[simp] theorem clearError_errinfo (s : State) : (clearError s).errinfo = 0 := rfl
@[simp] theorem latchCommand_busy (op : BitVec 4) (p : Bool) (s : State) : (latchCommand op p s).busy = true := rfl
@[simp] theorem latchCommand_k (op : BitVec 4) (p : Bool) (s : State) : (latchCommand op p s).k = 0 := rfl
@[simp] theorem latchCommand_latch (op : BitVec 4) (p : Bool) (s : State) :
    (latchCommand op p s).latch = { op := op, bufp := p, a := s.a, b := s.b, len := s.len } := rfl
@[simp] theorem foldByte_k (addr : Word) (s : State) : (foldByte addr s).k = s.k + 1 := rfl
@[simp] theorem foldByte_acc (addr : Word) (s : State) :
    (foldByte addr s).acc = accAfter (s.mem.read addr.toNat) s := rfl
@[simp] theorem foldByte_history (addr : Word) (s : State) :
    (foldByte addr s).history = .engineRead addr (s.mem.read addr.toNat) :: s.history := rfl
@[simp] theorem complete_result (r : Word) (s : State) : (complete r s).result = r := rfl
@[simp] theorem complete_busy (r : Word) (s : State) : (complete r s).busy = false := rfl
@[simp] theorem complete_done (r : Word) (s : State) : (complete r s).done = true := rfl
@[simp] theorem dataWrite_mem (addr : Word) (v : Byte) (s : State) :
    (dataWrite addr v s).mem = s.mem.write addr.toNat v := rfl
@[simp] theorem withEvent_pending (s : State) (e : Event) : (s.withEvent e).pending = e :: s.pending := rfl
@[simp] theorem withEvent_params (s : State) (e : Event) : (s.withEvent e).params = s.params := rfl
@[simp] theorem withEvent_consumed (s : State) (e : Event) : { s.withEvent e with pending := s.pending } = s := rfl

@[simp] theorem raiseError_a (code : ErrCode) (info : Word) (s : State) : (raiseError code info s).a = s.a := by unfold raiseError; split <;> rfl
@[simp] theorem raiseError_b (code : ErrCode) (info : Word) (s : State) : (raiseError code info s).b = s.b := by unfold raiseError; split <;> rfl
@[simp] theorem raiseError_len (code : ErrCode) (info : Word) (s : State) : (raiseError code info s).len = s.len := by unfold raiseError; split <;> rfl
@[simp] theorem raiseError_result (code : ErrCode) (info : Word) (s : State) : (raiseError code info s).result = s.result := by unfold raiseError; split <;> rfl
@[simp] theorem raiseError_busy (code : ErrCode) (info : Word) (s : State) : (raiseError code info s).busy = s.busy := by unfold raiseError; split <;> rfl
@[simp] theorem raiseError_done (code : ErrCode) (info : Word) (s : State) : (raiseError code info s).done = s.done := by unfold raiseError; split <;> rfl
@[simp] theorem raiseError_latch (code : ErrCode) (info : Word) (s : State) : (raiseError code info s).latch = s.latch := by unfold raiseError; split <;> rfl
@[simp] theorem raiseError_acc (code : ErrCode) (info : Word) (s : State) : (raiseError code info s).acc = s.acc := by unfold raiseError; split <;> rfl
@[simp] theorem raiseError_k (code : ErrCode) (info : Word) (s : State) : (raiseError code info s).k = s.k := by unfold raiseError; split <;> rfl
@[simp] theorem raiseError_params (code : ErrCode) (info : Word) (s : State) : (raiseError code info s).params = s.params := by unfold raiseError; split <;> rfl
@[simp] theorem raiseError_mem (code : ErrCode) (info : Word) (s : State) : (raiseError code info s).mem = s.mem := by unfold raiseError; split <;> rfl
@[simp] theorem raiseError_pending (code : ErrCode) (info : Word) (s : State) : (raiseError code info s).pending = s.pending := by unfold raiseError; split <;> rfl
@[simp] theorem raiseError_history (code : ErrCode) (info : Word) (s : State) : (raiseError code info s).history = s.history := by unfold raiseError; split <;> rfl
@[simp] theorem raiseError_resets (code : ErrCode) (info : Word) (s : State) : (raiseError code info s).resets = s.resets := by unfold raiseError; split <;> rfl

@[simp] theorem clearDone_a (s : State) : (clearDone s).a = s.a := rfl
@[simp] theorem clearDone_b (s : State) : (clearDone s).b = s.b := rfl
@[simp] theorem clearDone_len (s : State) : (clearDone s).len = s.len := rfl
@[simp] theorem clearDone_result (s : State) : (clearDone s).result = s.result := rfl
@[simp] theorem clearDone_errinfo (s : State) : (clearDone s).errinfo = s.errinfo := rfl
@[simp] theorem clearDone_busy (s : State) : (clearDone s).busy = s.busy := rfl
@[simp] theorem clearDone_err (s : State) : (clearDone s).err = s.err := rfl
@[simp] theorem clearDone_errcode (s : State) : (clearDone s).errcode = s.errcode := rfl
@[simp] theorem clearDone_latch (s : State) : (clearDone s).latch = s.latch := rfl
@[simp] theorem clearDone_acc (s : State) : (clearDone s).acc = s.acc := rfl
@[simp] theorem clearDone_k (s : State) : (clearDone s).k = s.k := rfl
@[simp] theorem clearDone_params (s : State) : (clearDone s).params = s.params := rfl
@[simp] theorem clearDone_mem (s : State) : (clearDone s).mem = s.mem := rfl
@[simp] theorem clearDone_pending (s : State) : (clearDone s).pending = s.pending := rfl
@[simp] theorem clearDone_history (s : State) : (clearDone s).history = s.history := rfl
@[simp] theorem clearDone_resets (s : State) : (clearDone s).resets = s.resets := rfl

@[simp] theorem clearError_a (s : State) : (clearError s).a = s.a := rfl
@[simp] theorem clearError_b (s : State) : (clearError s).b = s.b := rfl
@[simp] theorem clearError_len (s : State) : (clearError s).len = s.len := rfl
@[simp] theorem clearError_result (s : State) : (clearError s).result = s.result := rfl
@[simp] theorem clearError_busy (s : State) : (clearError s).busy = s.busy := rfl
@[simp] theorem clearError_done (s : State) : (clearError s).done = s.done := rfl
@[simp] theorem clearError_latch (s : State) : (clearError s).latch = s.latch := rfl
@[simp] theorem clearError_acc (s : State) : (clearError s).acc = s.acc := rfl
@[simp] theorem clearError_k (s : State) : (clearError s).k = s.k := rfl
@[simp] theorem clearError_params (s : State) : (clearError s).params = s.params := rfl
@[simp] theorem clearError_mem (s : State) : (clearError s).mem = s.mem := rfl
@[simp] theorem clearError_pending (s : State) : (clearError s).pending = s.pending := rfl
@[simp] theorem clearError_history (s : State) : (clearError s).history = s.history := rfl
@[simp] theorem clearError_resets (s : State) : (clearError s).resets = s.resets := rfl

@[simp] theorem writeStatus_a (v : Word) (s : State) : (writeStatus v s).a = s.a := by unfold writeStatus; split <;> rfl
@[simp] theorem writeStatus_b (v : Word) (s : State) : (writeStatus v s).b = s.b := by unfold writeStatus; split <;> rfl
@[simp] theorem writeStatus_len (v : Word) (s : State) : (writeStatus v s).len = s.len := by unfold writeStatus; split <;> rfl
@[simp] theorem writeStatus_result (v : Word) (s : State) : (writeStatus v s).result = s.result := by unfold writeStatus; split <;> rfl
@[simp] theorem writeStatus_busy (v : Word) (s : State) : (writeStatus v s).busy = s.busy := by unfold writeStatus; split <;> rfl
@[simp] theorem writeStatus_done (v : Word) (s : State) : (writeStatus v s).done = s.done := by unfold writeStatus; split <;> rfl
@[simp] theorem writeStatus_latch (v : Word) (s : State) : (writeStatus v s).latch = s.latch := by unfold writeStatus; split <;> rfl
@[simp] theorem writeStatus_acc (v : Word) (s : State) : (writeStatus v s).acc = s.acc := by unfold writeStatus; split <;> rfl
@[simp] theorem writeStatus_k (v : Word) (s : State) : (writeStatus v s).k = s.k := by unfold writeStatus; split <;> rfl
@[simp] theorem writeStatus_params (v : Word) (s : State) : (writeStatus v s).params = s.params := by unfold writeStatus; split <;> rfl
@[simp] theorem writeStatus_mem (v : Word) (s : State) : (writeStatus v s).mem = s.mem := by unfold writeStatus; split <;> rfl
@[simp] theorem writeStatus_pending (v : Word) (s : State) : (writeStatus v s).pending = s.pending := by unfold writeStatus; split <;> rfl
@[simp] theorem writeStatus_history (v : Word) (s : State) : (writeStatus v s).history = s.history := by unfold writeStatus; split <;> rfl
@[simp] theorem writeStatus_resets (v : Word) (s : State) : (writeStatus v s).resets = s.resets := by unfold writeStatus; split <;> rfl

@[simp] theorem latchCommand_a (op : BitVec 4) (p : Bool) (s : State) : (latchCommand op p s).a = s.a := rfl
@[simp] theorem latchCommand_b (op : BitVec 4) (p : Bool) (s : State) : (latchCommand op p s).b = s.b := rfl
@[simp] theorem latchCommand_len (op : BitVec 4) (p : Bool) (s : State) : (latchCommand op p s).len = s.len := rfl
@[simp] theorem latchCommand_result (op : BitVec 4) (p : Bool) (s : State) : (latchCommand op p s).result = s.result := rfl
@[simp] theorem latchCommand_errinfo (op : BitVec 4) (p : Bool) (s : State) : (latchCommand op p s).errinfo = s.errinfo := rfl
@[simp] theorem latchCommand_done (op : BitVec 4) (p : Bool) (s : State) : (latchCommand op p s).done = s.done := rfl
@[simp] theorem latchCommand_err (op : BitVec 4) (p : Bool) (s : State) : (latchCommand op p s).err = s.err := rfl
@[simp] theorem latchCommand_errcode (op : BitVec 4) (p : Bool) (s : State) : (latchCommand op p s).errcode = s.errcode := rfl
@[simp] theorem latchCommand_acc (op : BitVec 4) (p : Bool) (s : State) : (latchCommand op p s).acc = s.acc := rfl
@[simp] theorem latchCommand_params (op : BitVec 4) (p : Bool) (s : State) : (latchCommand op p s).params = s.params := rfl
@[simp] theorem latchCommand_mem (op : BitVec 4) (p : Bool) (s : State) : (latchCommand op p s).mem = s.mem := rfl
@[simp] theorem latchCommand_pending (op : BitVec 4) (p : Bool) (s : State) : (latchCommand op p s).pending = s.pending := rfl
@[simp] theorem latchCommand_history (op : BitVec 4) (p : Bool) (s : State) : (latchCommand op p s).history = s.history := rfl
@[simp] theorem latchCommand_resets (op : BitVec 4) (p : Bool) (s : State) : (latchCommand op p s).resets = s.resets := rfl

@[simp] theorem foldByte_a (addr : Word) (s : State) : (foldByte addr s).a = s.a := rfl
@[simp] theorem foldByte_b (addr : Word) (s : State) : (foldByte addr s).b = s.b := rfl
@[simp] theorem foldByte_len (addr : Word) (s : State) : (foldByte addr s).len = s.len := rfl
@[simp] theorem foldByte_result (addr : Word) (s : State) : (foldByte addr s).result = s.result := rfl
@[simp] theorem foldByte_errinfo (addr : Word) (s : State) : (foldByte addr s).errinfo = s.errinfo := rfl
@[simp] theorem foldByte_busy (addr : Word) (s : State) : (foldByte addr s).busy = s.busy := rfl
@[simp] theorem foldByte_done (addr : Word) (s : State) : (foldByte addr s).done = s.done := rfl
@[simp] theorem foldByte_err (addr : Word) (s : State) : (foldByte addr s).err = s.err := rfl
@[simp] theorem foldByte_errcode (addr : Word) (s : State) : (foldByte addr s).errcode = s.errcode := rfl
@[simp] theorem foldByte_latch (addr : Word) (s : State) : (foldByte addr s).latch = s.latch := rfl
@[simp] theorem foldByte_params (addr : Word) (s : State) : (foldByte addr s).params = s.params := rfl
@[simp] theorem foldByte_mem (addr : Word) (s : State) : (foldByte addr s).mem = s.mem := rfl
@[simp] theorem foldByte_pending (addr : Word) (s : State) : (foldByte addr s).pending = s.pending := rfl
@[simp] theorem foldByte_resets (addr : Word) (s : State) : (foldByte addr s).resets = s.resets := rfl

@[simp] theorem complete_a (r : Word) (s : State) : (complete r s).a = s.a := rfl
@[simp] theorem complete_b (r : Word) (s : State) : (complete r s).b = s.b := rfl
@[simp] theorem complete_len (r : Word) (s : State) : (complete r s).len = s.len := rfl
@[simp] theorem complete_errinfo (r : Word) (s : State) : (complete r s).errinfo = s.errinfo := rfl
@[simp] theorem complete_err (r : Word) (s : State) : (complete r s).err = s.err := rfl
@[simp] theorem complete_errcode (r : Word) (s : State) : (complete r s).errcode = s.errcode := rfl
@[simp] theorem complete_latch (r : Word) (s : State) : (complete r s).latch = s.latch := rfl
@[simp] theorem complete_acc (r : Word) (s : State) : (complete r s).acc = s.acc := rfl
@[simp] theorem complete_k (r : Word) (s : State) : (complete r s).k = s.k := rfl
@[simp] theorem complete_params (r : Word) (s : State) : (complete r s).params = s.params := rfl
@[simp] theorem complete_mem (r : Word) (s : State) : (complete r s).mem = s.mem := rfl
@[simp] theorem complete_pending (r : Word) (s : State) : (complete r s).pending = s.pending := rfl
@[simp] theorem complete_history (r : Word) (s : State) : (complete r s).history = s.history := rfl
@[simp] theorem complete_resets (r : Word) (s : State) : (complete r s).resets = s.resets := rfl

@[simp] theorem dataWrite_a (addr : Word) (v : Byte) (s : State) : (dataWrite addr v s).a = s.a := rfl
@[simp] theorem dataWrite_b (addr : Word) (v : Byte) (s : State) : (dataWrite addr v s).b = s.b := rfl
@[simp] theorem dataWrite_len (addr : Word) (v : Byte) (s : State) : (dataWrite addr v s).len = s.len := rfl
@[simp] theorem dataWrite_result (addr : Word) (v : Byte) (s : State) : (dataWrite addr v s).result = s.result := rfl
@[simp] theorem dataWrite_errinfo (addr : Word) (v : Byte) (s : State) : (dataWrite addr v s).errinfo = s.errinfo := rfl
@[simp] theorem dataWrite_busy (addr : Word) (v : Byte) (s : State) : (dataWrite addr v s).busy = s.busy := rfl
@[simp] theorem dataWrite_done (addr : Word) (v : Byte) (s : State) : (dataWrite addr v s).done = s.done := rfl
@[simp] theorem dataWrite_err (addr : Word) (v : Byte) (s : State) : (dataWrite addr v s).err = s.err := rfl
@[simp] theorem dataWrite_errcode (addr : Word) (v : Byte) (s : State) : (dataWrite addr v s).errcode = s.errcode := rfl
@[simp] theorem dataWrite_latch (addr : Word) (v : Byte) (s : State) : (dataWrite addr v s).latch = s.latch := rfl
@[simp] theorem dataWrite_acc (addr : Word) (v : Byte) (s : State) : (dataWrite addr v s).acc = s.acc := rfl
@[simp] theorem dataWrite_k (addr : Word) (v : Byte) (s : State) : (dataWrite addr v s).k = s.k := rfl
@[simp] theorem dataWrite_params (addr : Word) (v : Byte) (s : State) : (dataWrite addr v s).params = s.params := rfl
@[simp] theorem dataWrite_pending (addr : Word) (v : Byte) (s : State) : (dataWrite addr v s).pending = s.pending := rfl
@[simp] theorem dataWrite_history (addr : Word) (v : Byte) (s : State) : (dataWrite addr v s).history = s.history := rfl
@[simp] theorem dataWrite_resets (addr : Word) (v : Byte) (s : State) : (dataWrite addr v s).resets = s.resets := rfl

end Sys2Proof.Machine
end

