-- ==== Sys2Proof/Laws/Encoding.lean ====
section
/-! SUPPORT. The fields of a command word, and the decoder on them. -/

namespace Sys2Proof

/-- A word is made of its fields. -/
theorem word_fieldsOf (v : Word) : (fieldsOf v).word = v := by
  apply BitVec.eq_of_getLsbD_eq
  intro i hi
  simp only [Fields.word, fieldsOf, BitVec.getLsbD_append, BitVec.getLsbD_extractLsb', BitVec.getLsbD_ofBool]
  by_cases h4 : i < 4
  · simp [h4]
  · by_cases h5 : i - 4 < 1
    · have : i = 4 := by omega
      subst this
      simp
    · have hb : i - 4 - 1 < 27 := by omega
      have he : 5 + (i - 4 - 1) = i := by omega
      simp [h4, h5, hb, he]

/-- The bits of a word made of fields. -/
theorem Fields.word_getLsbD (f : Fields) (i : Nat) :
    f.word.getLsbD i = if i < 4 then f.op.getLsbD i else if i - 4 < 1 then f.bufp && decide (i - 4 = 0)
      else f.res.getLsbD (i - 4 - 1) := by
  simp only [Fields.word, BitVec.getLsbD_append, BitVec.getLsbD_ofBool]
  by_cases h4 : i < 4
  · simp [h4]
  · by_cases h5 : i - 4 < 1 <;> simp [h4, h5, Bool.and_comm]

/-- The fields of a word made of fields. -/
theorem fieldsOf_word (f : Fields) : fieldsOf f.word = f := by
  have hop : f.word.extractLsb' 0 4 = f.op := by
    apply BitVec.eq_of_getLsbD_eq
    intro i hi
    rw [BitVec.getLsbD_extractLsb', Fields.word_getLsbD]
    simp [hi]
  have hres : f.word.extractLsb' 5 27 = f.res := by
    apply BitVec.eq_of_getLsbD_eq
    intro i hi
    have h4 : ¬ 5 + i < 4 := by omega
    have h5 : ¬ 5 + i - 4 < 1 := by omega
    have he : 5 + i - 4 - 1 = i := by omega
    rw [BitVec.getLsbD_extractLsb', Fields.word_getLsbD, if_neg h4, if_neg h5, he]
    simp [hi]
  have hbufp : f.word.getLsbD 4 = f.bufp := by
    rw [Fields.word_getLsbD]; simp
  unfold fieldsOf
  rw [hop, hres, hbufp]

/-- The decoder, as it is used: on the fields of the word. -/
theorem decode_word (f : Fields) : decode f.word = decodeFields f := by rw [decode, fieldsOf_word]

theorem withoutBuffer_ok {f : Fields} {i j : Instr} (h : withoutBuffer f i = .ok j) : f.bufp = false ∧ i = j := by
  unfold withoutBuffer at h
  split at h
  · cases h
  · exact ⟨by simp_all, by injection h⟩

/-- Fields that decode are those of the command they decode to. -/
theorem decodeFields_ok {f : Fields} {i : Instr} (h : decodeFields f = .ok i) : f = i.fields := by
  obtain ⟨op, bufp, res⟩ := f
  unfold decodeFields at h
  split at h
  · cases h
  rename_i hres
  obtain rfl : res = 0 := by simpa using hres
  split at h
  · injection h with h; subst h; simp_all [Instr.fields, Instr.op, Instr.bufp]
  split at h
  · injection h with h; subst h; simp_all [Instr.fields, Instr.op, Instr.bufp]
  iterate 4
    split at h
    · obtain ⟨hb, rfl⟩ := withoutBuffer_ok h
      simp_all [Instr.fields, Instr.op, Instr.bufp]
  cases h

/-- The decoder rejects exactly the fields that are not well formed. -/
theorem decodeFields_isOk (f : Fields) : (decodeFields f).toBool = f.wf := by
  obtain ⟨op, bufp, res⟩ := f
  by_cases hres : res = 0
  · subst hres
    revert op bufp
    decide
  · have h1 : decodeFields { op := op, bufp := bufp, res := res } = .error .reservedBits := if_pos hres
    have h2 : Fields.resOk { op := op, bufp := bufp, res := res } = false := by
      simpa [Fields.resOk] using hres
    rw [h1, Fields.wf, h2]
    rfl

end Sys2Proof
end

