-- ==== Sys2Proof/Laws/Memory.lean ====
section
/-! SUPPORT. The data space: read after write, the canonical form, and that the lists stand for every content and for every
set of Readable addresses. -/

namespace Sys2Proof.Machine

theorem wfFrom_mono {m : Memory} {lo lo' : Nat} (h : lo' ≤ lo) (hm : m.wfFrom lo = true) : m.wfFrom lo' = true := by
  cases m with
  | nil => rfl
  | cons c m =>
    obtain ⟨a, v⟩ := c
    simp only [Memory.wfFrom, Bool.and_eq_true, decide_eq_true_eq] at hm ⊢
    exact ⟨⟨⟨by omega, hm.1.1.2⟩, hm.1.2⟩, hm.2⟩

/-- Below its first address a well-formed list holds what unlisted addresses hold. -/
theorem read_below {m : Memory} {lo addr : Nat} (hm : m.wfFrom lo = true) (h : addr < lo) :
    m.read addr = Memory.unlisted := by
  induction m generalizing lo with
  | nil => rfl
  | cons c m ih =>
    obtain ⟨a, v⟩ := c
    simp only [Memory.wfFrom, Bool.and_eq_true, decide_eq_true_eq] at hm
    have hne : a ≠ addr := by omega
    simp only [Memory.read, if_neg hne]
    exact ih hm.2 (by omega)

theorem cons_wfFrom {m : Memory} {lo addr : Nat} {v : Byte} (hlo : lo ≤ addr) (ha : addr < 2 ^ 32)
    (hm : m.wfFrom (addr + 1) = true) : (Memory.cons addr v m).wfFrom lo = true := by
  unfold Memory.cons
  split
  · exact wfFrom_mono (by omega) hm
  · simp only [Memory.wfFrom, Bool.and_eq_true, decide_eq_true_eq]
    exact ⟨⟨⟨hlo, ha⟩, by assumption⟩, hm⟩

theorem cons_read {m : Memory} {addr x : Nat} {v : Byte} (hm : m.wfFrom (addr + 1) = true) :
    (Memory.cons addr v m).read x = if x = addr then v else m.read x := by
  unfold Memory.cons
  split
  · rename_i hv
    split
    · subst_vars; exact read_below hm (by omega)
    · rfl
  · simp only [Memory.read]
    by_cases hx : x = addr
    · simp [hx]
    · rw [if_neg (fun h => hx h.symm), if_neg hx]

theorem write_wfFrom {m : Memory} {lo addr : Nat} {v : Byte} (hlo : lo ≤ addr) (ha : addr < 2 ^ 32)
    (hm : m.wfFrom lo = true) : (m.write addr v).wfFrom lo = true := by
  induction m generalizing lo with
  | nil => exact cons_wfFrom hlo ha rfl
  | cons c m ih =>
    obtain ⟨a, w⟩ := c
    have hm' := hm
    simp only [Memory.wfFrom, Bool.and_eq_true, decide_eq_true_eq] at hm'
    simp only [Memory.write]
    split
    · refine cons_wfFrom hlo ha ?_
      simp only [Memory.wfFrom, Bool.and_eq_true, decide_eq_true_eq]
      exact ⟨⟨⟨by omega, hm'.1.1.2⟩, hm'.1.2⟩, hm'.2⟩
    · split
      · subst_vars; exact cons_wfFrom hlo ha hm'.2
      · simp only [Memory.wfFrom, Bool.and_eq_true, decide_eq_true_eq]
        exact ⟨⟨⟨hm'.1.1.1, hm'.1.1.2⟩, hm'.1.2⟩, ih (by omega) hm'.2⟩

/-- A write of a data address keeps the canonical form. -/
theorem write_wf {m : Memory} {addr : Nat} {v : Byte} (ha : addr < 2 ^ 32) (hm : m.wf = true) :
    (m.write addr v).wf = true := write_wfFrom (Nat.zero_le _) ha hm

theorem write_read_from {m : Memory} {lo addr x : Nat} {v : Byte} (hm : m.wfFrom lo = true) :
    (m.write addr v).read x = if x = addr then v else m.read x := by
  induction m generalizing lo with
  | nil => exact cons_read rfl
  | cons c m ih =>
    obtain ⟨a, w⟩ := c
    have hm' := hm
    simp only [Memory.wfFrom, Bool.and_eq_true, decide_eq_true_eq] at hm'
    simp only [Memory.write]
    split
    · refine cons_read ?_
      simp only [Memory.wfFrom, Bool.and_eq_true, decide_eq_true_eq]
      exact ⟨⟨⟨by omega, hm'.1.1.2⟩, hm'.1.2⟩, hm'.2⟩
    · split
      · subst_vars
        rw [cons_read hm'.2]
        by_cases hx : x = a
        · rw [if_pos hx, if_pos hx]
        · rw [if_neg hx, if_neg hx, Memory.read, if_neg (fun h => hx h.symm)]
      · simp only [Memory.read, ih hm'.2]
        by_cases hx : a = x
        · rw [if_pos hx, if_pos hx, if_neg (by omega)]
        · rw [if_neg hx, if_neg hx]

/-- Reading after a write: the written byte at its address, every other byte as before. -/
theorem read_write {m : Memory} {addr x : Nat} {v : Byte} (hm : m.wf = true) :
    (m.write addr v).read x = if x = addr then v else m.read x := write_read_from hm

/-! ## The lists stand for every content and every platform -/

/-- The list of a content of the addresses below `n`. -/
def Memory.ofContent (f : Nat → Byte) : Nat → Memory
  | 0 => []
  | n + 1 => (ofContent f n).write n (f n)

theorem ofContent_wf (f : Nat → Byte) : ∀ n ≤ 2 ^ 32, (Memory.ofContent f n).wf = true
  | 0, _ => rfl
  | n + 1, h => write_wf (by omega) (ofContent_wf f n (by omega))

theorem ofContent_read (f : Nat → Byte) (x : Nat) :
    ∀ n ≤ 2 ^ 32, x < n → (Memory.ofContent f n).read x = f x
  | 0, _, h => absurd h (by omega)
  | n + 1, h, hx => by
    rw [Memory.ofContent, read_write (ofContent_wf f n (by omega))]
    by_cases hn : x = n
    · rw [if_pos hn, hn]
    · rw [if_neg hn, ofContent_read f x n (by omega) (by omega)]

/-- Every content of the data space is some well-formed list. -/
theorem memory_represents (f : Word → Byte) :
    ∃ m : Memory, m.wf = true ∧ ∀ addr : Word, m.read addr.toNat = f addr :=
  ⟨Memory.ofContent (fun n => f (BitVec.ofNat 32 n)) (2 ^ 32), ofContent_wf _ _ (Nat.le_refl _), fun addr => by
    rw [ofContent_read _ _ _ (Nat.le_refl _) addr.isLt, BitVec.ofNat_toNat, BitVec.setWidth_eq]⟩

/-- The addresses below `n` at which `f` is true, one region each. -/
def regionsOf (f : Word → Bool) : Nat → List Region
  | 0 => []
  | n + 1 => if f (BitVec.ofNat 32 n) then ⟨BitVec.ofNat 32 n, BitVec.ofNat 32 n⟩ :: regionsOf f n else regionsOf f n

theorem regionsOf_any (f : Word → Bool) (a : Word) :
    ∀ n ≤ 2 ^ 32, ((regionsOf f n).any fun r => inRegion r a) = (decide (a.toNat < n) && f a)
  | 0, _ => by simp [regionsOf]
  | n + 1, h => by
    have ih := regionsOf_any f a n (by omega)
    have hn : (BitVec.ofNat 32 n).toNat = n := by rw [BitVec.toNat_ofNat]; exact Nat.mod_eq_of_lt (by omega)
    by_cases hf : f (BitVec.ofNat 32 n) = true
    · rw [regionsOf, if_pos hf, List.any_cons, ih]
      by_cases ha : a.toNat = n
      · have : a = BitVec.ofNat 32 n := BitVec.eq_of_toNat_eq (by rw [hn, ha])
        subst this
        simp [inRegion, hn, hf]
      · have : inRegion ⟨BitVec.ofNat 32 n, BitVec.ofNat 32 n⟩ a = false := by
          simp only [inRegion, hn, Bool.and_eq_false_iff, decide_eq_false_iff_not]; omega
        rw [this, Bool.false_or]
        congr 1
        exact decide_eq_decide.2 (by omega)
    · rw [regionsOf, if_neg hf, ih]
      by_cases ha : a.toNat = n
      · have : a = BitVec.ofNat 32 n := BitVec.eq_of_toNat_eq (by rw [hn, ha])
        subst this
        simp [hf]
      · congr 1
        exact decide_eq_decide.2 (by omega)

/-- Every platform's `Readable` (R11) is some list of regions. -/
theorem readable_represents (f : Word → Bool) (p : Params) :
    ∃ rs : List Region, ∀ addr, isReadable { p with readable := rs } addr = f addr :=
  ⟨regionsOf f (2 ^ 32), fun addr => by
    show ((regionsOf f (2 ^ 32)).any fun r => inRegion r addr) = f addr
    rw [regionsOf_any f addr _ (Nat.le_refl _)]
    simp [addr.isLt]⟩

end Sys2Proof.Machine
end

