-- ==== Sys2Proof/Laws/Ops.lean ====
section
/-! SUPPORT. One lemma per shared operation that says everything it can do: a command write, the access check, a register
write, an engine step, an event, a step. -/

namespace Sys2Proof.Machine

/-! ## Access to the register window -/

theorem regAddress_offset (base off : Word) : base + off - base = off := by
  rw [BitVec.add_comm, BitVec.add_sub_cancel]

/-- A word access at a multiple of 4 inside the window reaches the register at its offset. -/
theorem access_word (p : Params) {off : Word} (h4 : off.toNat % 4 = 0) (hoff : off.toNat < 0x40) :
    access p (p.base + off) .word = .ok (regAt off.toNat) := by
  unfold access
  rw [regAddress_offset]
  simp [h4, Nat.not_le.2 hoff]

/-- Every other access inside the window is refused. -/
theorem access_refused (p : Params) {off : Word} {w : Width} (hoff : off.toNat < 0x40)
    (h : w ≠ .word ∨ off.toNat % 4 ≠ 0) :
    access p (p.base + off) w = .error (.notAWordAccess (p.base + off) w) := by
  unfold access
  rw [regAddress_offset]
  simp only [Nat.not_le.2 hoff, if_false, if_pos h]

/-- An access that is not refused is a word access at a register's offset. -/
theorem access_ok {p : Params} {addr : Word} {w : Width} {r : Reg} (h : access p addr w = .ok r) :
    w = .word ∧ (addr - p.base).toNat < 0x40 ∧ (addr - p.base).toNat % 4 = 0 ∧ r = regAt (addr - p.base).toNat := by
  unfold access at h
  simp only at h
  split at h
  · cases h
  · split at h
    · cases h
    · rename_i h1 h2
      refine ⟨Classical.byContradiction fun hc => h2 (.inl hc), by omega,
        Classical.byContradiction fun hc => h2 (.inr hc), ?_⟩
      injection h with h
      exact h.symm

/-- The offset that a named register stands at, from the register found there. -/
theorem regAt_eq {n : Nat} {r : Reg} (h : regAt n = r) (hr : r ≠ .reserved) : n = (regOffset r).toNat := by
  unfold regAt at h
  split at h <;> subst h <;> first | rfl | exact absurd rfl hr

/-- An access that reaches a named register stands at BASE plus its offset. -/
theorem access_named {p : Params} {addr : Word} {w : Width} {r : Reg} (h : access p addr w = .ok r) (hr : r ≠ .reserved) :
    w = .word ∧ addr = p.base + regOffset r := by
  obtain ⟨hw, -, -, h⟩ := access_ok h
  refine ⟨hw, ?_⟩
  have := BitVec.eq_of_toNat_eq (regAt_eq h.symm hr)
  rw [← this, BitVec.add_comm, BitVec.sub_add_cancel]

/-! ## The command write -/

theorem bufferPastTop_iff (i : Instr) (s : State) (hi : i.op = 1 ∨ i.op = 2) :
    bufferPastTop i.bufp s = true ↔ PastTop i s := by
  cases i <;> simp_all [bufferPastTop, PastTop, Instr.op, Instr.bufp]
    <;> (rename_i p; cases p <;> simp)

theorem lowHalf_eq (v : Word) : lowHalf v = BitVec.ofNat 32 (v.toNat % 2 ^ 16) := by
  apply BitVec.eq_of_toNat_eq
  simp only [lowHalf, BitVec.toNat_setWidth, BitVec.toNat_ofNat]

theorem lowHalf_lt (v : Word) : (lowHalf v).toNat < 2 ^ 16 := by
  rw [lowHalf_eq, BitVec.toNat_ofNat]; omega

/-- A command write while BUSY = 1 is dropped and recorded, whichever the command is. -/
theorem exec_busy (i : Instr) {s : State} (h : s.busy = true) : exec i s = .next (s.withError .busyWrite 0x00) := by
  cases i <;> simp only [exec, execCrc16, execCrc32, execGcd, execGrayenc, execGraydec, execIsqrt, issueCrc, issuePlain,
    commandWrite, h, if_true, busyWrite_eq] <;> rfl

/-- A command write while BUSY = 0 clears DONE and goes on. -/
theorem commandWrite_idle (go : State → State) {s : State} (h : s.busy = false) :
    commandWrite go s = .next (go (clearDone s)) := by
  unfold commandWrite; rw [if_neg (by simp [h])]

/-- A CRC command write whose buffer passes the top, while BUSY = 0. -/
theorem exec_range {i : Instr} {s : State} (h : s.busy = false) (hp : PastTop i s) :
    exec i s = .next ({ s with done := false }.withError .range s.b) := by
  have hc : bufferPastTop i.bufp (clearDone s) = true :=
    (bufferPastTop_iff i (clearDone s) (by obtain ⟨rfl | rfl, -⟩ := hp <;> simp [Instr.op])).2 hp
  have hr : rangeError (clearDone s) = { s with done := false }.withError .range s.b := rangeError_eq _
  obtain ⟨rfl | rfl, -⟩ := hp
  all_goals
    rw [exec]
    first | unfold execCrc16 | unfold execCrc32
    unfold issueCrc
    rw [commandWrite_idle _ h]
    simp only [Instr.bufp] at hc
    rw [if_pos hc, hr]

/-- Every command that is not turned away is issued. -/
theorem exec_issue {i : Instr} {s : State} (h : s.busy = false) (hp : ¬ PastTop i s) : exec i s = .next (issued i s) := by
  have hc : i.op = 1 ∨ i.op = 2 → ¬ bufferPastTop i.bufp (clearDone s) = true := fun hi hc =>
    hp ((bufferPastTop_iff i (clearDone s) hi).1 hc)
  have hl := lowHalf_eq s.a
  cases i
  case crc16 p =>
    have hc : ¬ bufferPastTop p (clearDone s) = true := hc (.inl rfl)
    rw [exec, execCrc16, issueCrc, commandWrite_idle _ h, if_neg hc]
    simp only [issued, issuedAcc, ← hl]; rfl
  case crc32 p =>
    have hc : ¬ bufferPastTop p (clearDone s) = true := hc (.inr rfl)
    rw [exec, execCrc32, issueCrc, commandWrite_idle _ h, if_neg hc]; rfl
  all_goals
    rw [exec]
    first | unfold execGcd | unfold execGrayenc | unfold execGraydec | unfold execIsqrt
    rw [issuePlain, commandWrite_idle _ h]
    rfl

/-- All that a command write can do: BUSY_WRITE, RANGE, or issue. -/
theorem exec_cases (i : Instr) (s : State) :
    (s.busy = true ∧ exec i s = .next (s.withError .busyWrite 0x00)) ∨
    (s.busy = false ∧ PastTop i s ∧ exec i s = .next ({ s with done := false }.withError .range s.b)) ∨
    (s.busy = false ∧ ¬ PastTop i s ∧ exec i s = .next (issued i s)) := by
  cases hb : s.busy with
  | true => exact .inl ⟨rfl, exec_busy i hb⟩
  | false =>
    by_cases hp : PastTop i s
    · exact .inr (.inl ⟨rfl, hp, by rw [exec_range hb hp, hb]⟩)
    · exact .inr (.inr ⟨rfl, hp, exec_issue hb hp⟩)

/-! ## Host writes -/

/-- A write to CMD is a BUSY_WRITE, an ILLEGAL_OP, or the command write of the decoded command. -/
theorem writeCmd_cases {v : Word} {s : State} {o : Host.Outcome State Fault Refusal} (h : writeCmd v s = o) :
    (s.busy = true ∧ o = .next (s.withError .busyWrite 0x00)) ∨
    (s.busy = false ∧ (∃ why, decode v = .error why) ∧ o = .next ({ s with done := false }.withError .illegalOp v)) ∨
    (s.busy = false ∧ ∃ i, decode v = .ok i ∧ o = exec i s) := by
  subst h
  unfold writeCmd
  split
  · exact .inl ⟨by assumption, by rw [busyWrite_eq]; rfl⟩
  · have hb : s.busy = false := by simpa using ‹¬ s.busy = true›
    split
    · exact .inr (.inl ⟨hb, ⟨_, by assumption⟩, by rw [illegalOp_eq]⟩)
    · exact .inr (.inr ⟨hb, _, by assumption, rfl⟩)

/-- What a host write to a register does: it goes to CMD, it stores an operand, it is a BUSY_WRITE, it clears the error, or
it does nothing. -/
theorem writeReg_cases (r : Reg) (v : Word) (s : State) :
    (r = .cmd ∧ writeReg r v s = writeCmd v s) ∨
    (s.busy = true ∧ (r = .a ∨ r = .b ∨ r = .len) ∧ writeReg r v s = .next (s.withError .busyWrite (regOffset r))) ∨
    (s.busy = false ∧ ((r = .a ∧ writeReg r v s = .next { s with a := v }) ∨
      (r = .b ∧ writeReg r v s = .next { s with b := v }) ∨ (r = .len ∧ writeReg r v s = .next { s with len := v }))) ∨
    (r = .status ∧ v.getLsbD 2 = true ∧
      writeReg r v s = .next { s with err := false, errcode := .none, errinfo := 0 }) ∨
    (r ≠ .cmd ∧ r ≠ .a ∧ r ≠ .b ∧ r ≠ .len ∧ (r = .status → v.getLsbD 2 = false) ∧ writeReg r v s = .next s) := by
  have hst : writeReg .status v s = .next (if v.getLsbD 2 = true then clearError s else s) := rfl
  cases hb : s.busy <;> cases r
  case false.status | true.status =>
    cases hv : v.getLsbD 2
    · exact .inr (.inr (.inr (.inr ⟨by simp, by simp, by simp, by simp, fun _ => rfl, by rw [hst, hv]; rfl⟩)))
    · exact .inr (.inr (.inr (.inl ⟨rfl, rfl, by rw [hst, hv, if_pos rfl, clearError, hb]⟩)))
  all_goals simp [writeReg, writeA, writeB, writeLen, hb, busyWrite_eq]

/-! ## The engine -/

/-- Each legal operation has a result. -/
theorem commandResult_isSome {s : State} (h : s.Running) : ∃ r, commandResult s = some r := by
  have hl := h.legal
  have : s.latch.op = 1 ∨ s.latch.op = 2 ∨ s.latch.op = 3 ∨ s.latch.op = 4 ∨ s.latch.op = 5 ∨ s.latch.op = 6 := by
    revert hl
    generalize s.latch.op = op
    generalize s.latch.bufp = bufp
    revert op bufp
    decide
  rcases this with h | h | h | h | h | h <;> simp [commandResult, h]

theorem byteStepEnabled_iff (s : State) :
    byteStepEnabled s = true ↔
      s.busy = true ∧ (s.latch.op = 1 ∨ s.latch.op = 2) ∧ s.latch.bufp = true ∧ s.k.toNat < s.latch.len.toNat := by
  simp [byteStepEnabled, crcLatched, and_assoc]

/-- What an engine step that answers a next state did: nothing while idle, one read and one fold, a MEM_FAULT, or the
completion. -/
theorem engineStep_cases {s t : State} (h : engineStep s = .next t) :
    (s.busy = false ∧ t = s) ∨
    (byteStepEnabled s = true ∧ ∃ addr : Word, addr.toNat = bufferAddress s ∧
      ((isReadable s.params addr = true ∧ t = foldByte addr s) ∨
       (isReadable s.params addr = false ∧ t = { s.withError .memFault addr with busy := false, done := false }))) ∨
    (s.busy = true ∧ byteStepEnabled s = false ∧ ∃ r, commandResult s = some r ∧ t = completed r s) := by
  unfold engineStep at h
  split at h
  · rename_i hb
    split at h
    · rename_i he
      refine .inr (.inl ⟨he, BitVec.ofNat 32 (bufferAddress s), ?_⟩)
      unfold byteStep at h
      simp only at h
      split at h
      · cases h
      · rename_i ha
        refine ⟨by rw [BitVec.toNat_ofNat]; exact Nat.mod_eq_of_lt (by omega), ?_⟩
        split at h
        · exact .inl ⟨by assumption, by injection h with h; exact h.symm⟩
        · refine .inr ⟨by simpa using ‹¬ _ = true›, ?_⟩
          injection h with h
          rw [← h, memFault_eq]
    · rename_i he
      refine .inr (.inr ⟨hb, by simpa using he, ?_⟩)
      unfold completionStep at h
      split at h
      · exact ⟨_, by assumption, by injection h with h; exact h.symm⟩
      · cases h
  · exact .inl ⟨by simpa using ‹¬ s.busy = true›, by injection h with h; exact h.symm⟩

/-- The byte step's value where it is enabled and its address is below 2^32. -/
theorem engineStep_byte {s : State} {addr : Word} (he : byteStepEnabled s = true)
    (ha : addr.toNat = s.latch.b.toNat + s.k.toNat) :
    engineStep s =
      if isReadable s.params addr then .next (foldByte addr s)
      else .next { s.withError .memFault addr with busy := false, done := false } := by
  have hb := ((byteStepEnabled_iff s).1 he).1
  have h : BitVec.ofNat 32 (bufferAddress s) = addr := BitVec.eq_of_toNat_eq (by
    rw [BitVec.toNat_ofNat, bufferAddress, ← ha]; exact Nat.mod_eq_of_lt addr.isLt)
  have hlt : ¬ 2 ^ 32 ≤ bufferAddress s := by have := addr.isLt; unfold bufferAddress; omega
  rw [engineStep, if_pos hb, if_pos he, byteStep, ← memFault_eq]
  simp only [hlt, if_false, h]

/-- The completion step's value where it is enabled and the latch holds an operation. -/
theorem engineStep_completion {s : State} {r : Word} (hb : s.busy = true) (he : byteStepEnabled s = false)
    (hr : commandResult s = some r) : engineStep s = .next (completed r s) := by
  rw [engineStep, if_pos hb, he]
  simp only [Bool.false_eq_true, if_false, completionStep, hr]
  rfl

/-- An engine step does not touch the events to come. -/
theorem engineStep_pending {s t : State} (h : engineStep s = .next t) : t.pending = s.pending := by
  rcases engineStep_cases h with ⟨-, rfl⟩ | ⟨-, addr, -, ⟨-, rfl⟩ | ⟨-, rfl⟩⟩ | ⟨-, -, r, -, rfl⟩ <;> rfl

/-- In a state that meets the invariant the engine always answers a next state. -/
theorem engineStep_next {s : State} (h : s.Inv) : ∃ t, engineStep s = .next t := by
  unfold engineStep
  split
  · rename_i hb
    have hr := h.running hb
    split
    · rename_i he
      obtain ⟨-, -, hp, hk⟩ := (byteStepEnabled_iff s).1 he
      have hf := hr.fits hp (by omega)
      have ha : ¬ 2 ^ 32 ≤ bufferAddress s := by unfold bufferAddress; omega
      unfold byteStep
      simp only [ha, if_false]
      split <;> exact ⟨_, rfl⟩
    · obtain ⟨r, hr⟩ := commandResult_isSome hr
      exact ⟨_, by unfold completionStep; rw [hr]⟩
  · exact ⟨_, rfl⟩

/-! ## One step -/

/-- What a step that answers a next state did, on the state `u` without the event: a host read, a host write to a register,
an engine step, a reset, or a write of the data space. -/
theorem step_cases {s t : State} (h : step s = .next t) :
    (s.pending = [] ∧ engineStep s = .next t) ∨
    ∃ e rest, s.pending = e :: rest ∧
      ((∃ addr w r, e = .hostRead addr w ∧ access s.params addr w = .ok r ∧
          t = { s with pending := rest, history := .hostRead addr (readReg r s) :: s.history }) ∨
       (∃ addr w v r, e = .hostWrite addr w v ∧ access s.params addr w = .ok r ∧
          writeReg r v { s with pending := rest } = .next t) ∨
       (e = .engine ∧ engineStep { s with pending := rest } = .next t) ∨
       (e = .reset ∧ t = resetEvent { s with pending := rest }) ∨
       (∃ addr v, e = .dataWrite addr v ∧ t = dataWrite addr v { s with pending := rest })) := by
  unfold step at h
  split at h
  · exact .inl ⟨by assumption, h⟩
  · rename_i e rest hp
    refine .inr ⟨e, rest, hp, ?_⟩
    cases e with
    | hostWrite addr w v =>
      simp only [perform, hostWrite] at h
      split at h
      · cases h
      · exact .inr (.inl ⟨addr, w, v, _, rfl, by assumption, h⟩)
    | hostRead addr w =>
      simp only [perform, hostRead] at h
      split at h
      · cases h
      · rename_i r hr
        refine .inl ⟨addr, w, r, rfl, hr, ?_⟩
        injection h with h
        rw [← h]
        cases r <;> rfl
    | engine => exact .inr (.inr (.inl ⟨rfl, h⟩))
    | reset => exact .inr (.inr (.inr (.inl ⟨rfl, by injection h with h; exact h.symm⟩)))
    | dataWrite addr v => exact .inr (.inr (.inr (.inr ⟨addr, v, rfl, by injection h with h; exact h.symm⟩)))

/-- One step with the event `e` to come first is the effect of `e`. -/
theorem step_withEvent (s : State) (e : Event) : step (s.withEvent e) = perform e s := rfl

/-- A word write inside the window writes the register at its offset. -/
theorem step_hostWrite (s : State) {off : Word} (v : Word) (h4 : off.toNat % 4 = 0) (hoff : off.toNat < 0x40) :
    step (s.withEvent (.hostWrite (s.params.base + off) .word v)) = writeReg (regAt off.toNat) v s := by
  rw [step_withEvent, perform, hostWrite, access_word s.params h4 hoff]

/-- A write to CMD. -/
theorem step_cmd (s : State) (v : Word) : step (s.withEvent (cmdEvent s.params v)) = writeCmd v s :=
  step_hostWrite s v rfl (by decide)

end Sys2Proof.Machine
end

