-- ==== Sys2Proof/Laws/PerInstr.lean ====
section
/-! SUPPORT. Statements about every command, made per constructor: a command's fields are well formed, and its word decodes
to it. -/

namespace Sys2Proof.Laws

/-- The fields of the command's word pass every check of R71 to R73. -/
def WellFormed.Statement (i : Instr) : Prop := i.fields.wf = true

theorem WellFormed.crc16 (bufp : Bool) : WellFormed.Statement (.crc16 bufp) := by cases bufp <;> rfl
theorem WellFormed.crc32 (bufp : Bool) : WellFormed.Statement (.crc32 bufp) := by cases bufp <;> rfl
theorem WellFormed.gcd : WellFormed.Statement .gcd := rfl
theorem WellFormed.grayenc : WellFormed.Statement .grayenc := rfl
theorem WellFormed.graydec : WellFormed.Statement .graydec := rfl
theorem WellFormed.isqrt : WellFormed.Statement .isqrt := rfl

/-- The decoder reads the command from its word's fields. -/
def FieldsDecode.Statement (i : Instr) : Prop := decodeFields i.fields = .ok i

theorem FieldsDecode.crc16 (bufp : Bool) : FieldsDecode.Statement (.crc16 bufp) := rfl
theorem FieldsDecode.crc32 (bufp : Bool) : FieldsDecode.Statement (.crc32 bufp) := rfl
theorem FieldsDecode.gcd : FieldsDecode.Statement .gcd := rfl
theorem FieldsDecode.grayenc : FieldsDecode.Statement .grayenc := rfl
theorem FieldsDecode.graydec : FieldsDecode.Statement .graydec := rfl
theorem FieldsDecode.isqrt : FieldsDecode.Statement .isqrt := rfl

end Sys2Proof.Laws
end

