-- ==== Sys2Proof/Laws/Run.lean ====
section
/-! SUPPORT. Runs of several steps, and inductions over them packaged once. -/

namespace Sys2Proof.Machine

/-- A run of `n + 1` steps is a step and a run of `n`. -/
theorem run_succ {s t : State} (n : Nat) (h : step s = .next t) :
    Host.Core.run Sys2Proof.core (n + 1) s = Host.Core.run Sys2Proof.core n t := by
  simp only [Host.Core.run]
  rw [show Sys2Proof.core.step s = Host.Outcome.next t from h]

/-- A run, step by step. -/
theorem run_next {s t : State} {n : Nat} {o : Host.Outcome State Fault Refusal} (h : step s = .next t)
    (hr : Host.Core.run Sys2Proof.core n t = o) : Host.Core.run Sys2Proof.core (n + 1) s = o := (run_succ n h).trans hr

/-- A run of `n + 1` steps that answers a next state passes through the state after its first step. -/
theorem run_succ_next {n : Nat} {s t : State} (h : Host.Core.run Sys2Proof.core (n + 1) s = .next t) :
    ∃ u, step s = .next u ∧ Host.Core.run Sys2Proof.core n u = .next t := by
  simp only [Host.Core.run] at h
  split at h
  · rename_i u hu
    exact ⟨u, hu, h⟩
  · cases h
  · cases h

/-- A run of `m + n` steps goes on from where a run of `m` ends. -/
theorem run_add {m : Nat} (n : Nat) : ∀ {s t : State}, Host.Core.run Sys2Proof.core m s = .next t →
    Host.Core.run Sys2Proof.core (m + n) s = Host.Core.run Sys2Proof.core n t := by
  induction m with
  | zero => intro s t h; injection h with h; rw [h, Nat.zero_add]
  | succ m ih =>
    intro s t h
    obtain ⟨u, hu, h⟩ := run_succ_next h
    rw [show m + 1 + n = m + n + 1 by omega, run_succ _ hu, ih h]

/-- A relation between states that every step keeps, every run keeps. -/
theorem run_keeps (R : State → State → Prop) (hrefl : ∀ s, R s s) (htrans : ∀ s t u, R s t → R t u → R s u)
    (hstep : ∀ s t, step s = .next t → R s t) :
    ∀ (n : Nat) (s t : State), Host.Core.run Sys2Proof.core n s = .next t → R s t
  | 0, s, t, h => by
    injection h with h
    exact h ▸ hrefl s
  | n + 1, s, t, h => by
    obtain ⟨u, hu, hr⟩ := run_succ_next h
    exact htrans s u t (hstep s u hu) (run_keeps R hrefl htrans hstep n u t hr)

/-- From a state in a set that every step keeps and in which every step answers a next state, every run is safe. -/
theorem run_safe (P : State → Prop) (hnext : ∀ s, P s → ∃ t, step s = .next t)
    (hkeep : ∀ s t, P s → step s = .next t → P t) : ∀ (n : Nat) (s : State), P s → SafeRun n s
  | 0, s, _ => ⟨s, rfl⟩
  | n + 1, s, h => by
    obtain ⟨t, ht⟩ := hnext s h
    obtain ⟨u, hu⟩ := run_safe P hnext hkeep n t (hkeep s t h ht)
    exact ⟨u, by rw [run_succ n ht, hu]⟩

end Sys2Proof.Machine
end

