-- ==== Sys2Proof/Laws/Step.lean ====
section
/-! SUPPORT. What one step can change, said once for the statements about the whole machine, and the steps of a program's
events. -/

namespace Sys2Proof.Machine

/-- All that a step which answers a next state can have done to the state: an engine step, a reset, a write of the data
space, nothing but the record (a host read, or a write without effect), a BUSY_WRITE, an ILLEGAL_OP or RANGE with DONE
cleared, the issue of a command, a write of an operand register, or the clear of the error. Each comes with its event. -/
theorem step_changes {s t : State} (h : step s = .next t) :
    (engineStep { s with pending := t.pending } = .next t ∧ (s.pending = [] ∨ s.pending = .engine :: t.pending)) ∨
    (s.pending = .reset :: t.pending ∧ t = resetEvent { s with pending := t.pending }) ∨
    (∃ addr v, s.pending = .dataWrite addr v :: t.pending ∧ t = dataWrite addr v { s with pending := t.pending }) ∨
    ((∃ e, s.pending = e :: t.pending ∧ (∀ v, e ≠ cmdEvent s.params v) ∧ e ≠ .engine ∧ e ≠ .reset) ∧
      ∃ h, t = { s with pending := t.pending, history := h }) ∨
    (s.busy = true ∧ ∃ off ∈ ([0x00, 0x04, 0x08, 0x0C] : List Word), ∃ v,
      s.pending = .hostWrite (s.params.base + off) .word v :: t.pending ∧
      t = { s with pending := t.pending }.withError .busyWrite off) ∨
    (s.busy = false ∧ ∃ v, s.pending = cmdEvent s.params v :: t.pending ∧
      ∃ code info, t = { s with pending := t.pending, done := false }.withError code info) ∨
    (s.busy = false ∧ ∃ v i, s.pending = cmdEvent s.params v :: t.pending ∧ decode v = .ok i ∧
      t = issued i { s with pending := t.pending }) ∨
    (s.busy = false ∧ ∃ v, s.pending = .hostWrite (s.params.base + 0x04) .word v :: t.pending ∧
      t = { s with pending := t.pending, a := v }) ∨
    (s.busy = false ∧ ∃ v, s.pending = .hostWrite (s.params.base + 0x08) .word v :: t.pending ∧
      t = { s with pending := t.pending, b := v }) ∨
    (s.busy = false ∧ ∃ v, s.pending = .hostWrite (s.params.base + 0x0C) .word v :: t.pending ∧
      t = { s with pending := t.pending, len := v }) ∨
    (∃ v, v.getLsbD 2 = true ∧ s.pending = .hostWrite (s.params.base + 0x14) .word v :: t.pending ∧
      t = { s with pending := t.pending, err := false, errcode := .none, errinfo := 0 }) := by
  rcases step_cases h with ⟨hp, he⟩ | ⟨e, rest, hp, h'⟩
  · exact .inl ⟨by rw [engineStep_pending he]; exact he, .inl hp⟩
  · rcases h' with ⟨addr, w, r, rfl, -, rfl⟩ | ⟨addr, w, v, r, rfl, hr, hw⟩ | ⟨rfl, he⟩ | ⟨rfl, rfl⟩ | ⟨addr, v, rfl, rfl⟩
    · exact .inr (.inr (.inr (.inl ⟨⟨_, hp, by simp [cmdEvent], by simp, by simp⟩, _, rfl⟩)))
    · have ha := fun hne => access_named hr hne
      rcases writeReg_cases r v { s with pending := rest } with ⟨rfl, h'⟩ | ⟨hb, hrr, h'⟩ |
          ⟨hb, ⟨rfl, h'⟩ | ⟨rfl, h'⟩ | ⟨rfl, h'⟩⟩ | ⟨rfl, hv, h'⟩ | ⟨hc, -, -, -, -, h'⟩
      · obtain ⟨rfl, rfl⟩ := ha (by simp)
        rw [h'] at hw
        rcases writeCmd_cases hw with ⟨hb, h⟩ | ⟨hb, hd, h⟩ | ⟨hb, i, hd, h⟩
        · injection h with h; subst h
          exact .inr (.inr (.inr (.inr (.inl ⟨by assumption, 0x00, by simp, v, hp, rfl⟩))))
        · injection h with h; subst h; exact .inr (.inr (.inr (.inr (.inr (.inl ⟨hb, v, hp, _, _, rfl⟩)))))
        · rcases exec_cases i { s with pending := rest } with ⟨hb', h'⟩ | ⟨-, -, h'⟩ | ⟨-, -, h'⟩ <;> rw [h'] at h <;>
            injection h with h <;> subst h
          · exact absurd (hb.symm.trans hb') (by simp)
          · exact .inr (.inr (.inr (.inr (.inr (.inl ⟨hb, v, hp, _, _, rfl⟩)))))
          · exact .inr (.inr (.inr (.inr (.inr (.inr (.inl ⟨hb, v, i, hp, hd, rfl⟩))))))
      · rw [h'] at hw; injection hw with hw; subst hw
        have hne : r ≠ .reserved := by rcases hrr with rfl | rfl | rfl <;> simp
        obtain ⟨rfl, rfl⟩ := ha hne
        exact .inr (.inr (.inr (.inr (.inl ⟨hb, regOffset r, by rcases hrr with rfl | rfl | rfl <;> simp [regOffset],
          v, hp, rfl⟩))))
      · obtain ⟨rfl, rfl⟩ := ha (by simp)
        rw [h'] at hw; injection hw with hw; subst hw
        exact .inr (.inr (.inr (.inr (.inr (.inr (.inr (.inl ⟨hb, v, hp, rfl⟩)))))))
      · obtain ⟨rfl, rfl⟩ := ha (by simp)
        rw [h'] at hw; injection hw with hw; subst hw
        exact .inr (.inr (.inr (.inr (.inr (.inr (.inr (.inr (.inl ⟨hb, v, hp, rfl⟩))))))))
      · obtain ⟨rfl, rfl⟩ := ha (by simp)
        rw [h'] at hw; injection hw with hw; subst hw
        exact .inr (.inr (.inr (.inr (.inr (.inr (.inr (.inr (.inr (.inl ⟨hb, v, hp, rfl⟩)))))))))
      · obtain ⟨rfl, rfl⟩ := ha (by simp)
        rw [h'] at hw; injection hw with hw; subst hw
        exact .inr (.inr (.inr (.inr (.inr (.inr (.inr (.inr (.inr (.inr ⟨v, hv, hp, rfl⟩)))))))))
      · rw [h'] at hw; injection hw with hw; subst hw
        refine .inr (.inr (.inr (.inl ⟨⟨_, hp, fun x hx => hc ?_, by simp, by simp⟩, s.history, rfl⟩)))
        injection hx with h1 h2 h3
        subst h1 h2
        rw [access_word s.params (off := 0x00) rfl (by decide)] at hr
        injection hr with hr
        exact hr.symm
    · exact .inl ⟨by rw [engineStep_pending he]; exact he, .inr (by rw [hp, engineStep_pending he])⟩
    · exact .inr (.inl ⟨hp, rfl⟩)
    · exact .inr (.inr (.inl ⟨addr, v, hp, rfl⟩))

/-! ## The byte steps of a running CRC -/

/-- With no event to come, or with `n` engine events to come first, `n` byte steps over Readable bytes: the accumulator folds
the bytes that were read, the index moves by `n`, the record gains the reads, and nothing else changes. -/
theorem run_byteSteps (rest : List Event) (n : Nat) : ∀ {s : State},
    s.pending = List.replicate n .engine ++ rest ∨ s.pending = [] ∧ rest = [] → s.busy = true →
    s.latch.op = 1 ∨ s.latch.op = 2 → s.latch.bufp = true → s.k.toNat + n ≤ s.latch.len.toNat →
    s.latch.b.toNat + s.k.toNat + n ≤ 2 ^ 32 →
    (∀ j < n, isReadable s.params (BitVec.ofNat 32 (s.latch.b.toNat + s.k.toNat + j)) = true) →
    Host.Core.run Sys2Proof.core n s = .next { s with
      acc := ((List.range n).map fun j => s.mem.read (s.latch.b.toNat + s.k.toNat + j)).foldl
        (fun acc byte => accAfter byte { s with acc := acc }) s.acc
      k := s.k + BitVec.ofNat 33 n
      pending := rest
      history := ((List.range n).map fun j => Observation.engineRead
        (BitVec.ofNat 32 (s.latch.b.toNat + s.k.toNat + j))
        (s.mem.read (s.latch.b.toNat + s.k.toNat + j))).reverse ++ s.history } := by
  induction n with
  | zero =>
    intro s hp _ _ _ _ _ _
    have : s.pending = rest := hp.elim id fun h => h.1.trans h.2.symm
    simp [Host.Core.run, ← this]
  | succ n ih =>
    intro s hp hb hop hbu hk hf hr
    have hlen := s.latch.len.isLt
    have he := (byteStepEnabled_iff s).2 ⟨hb, hop, hbu, by omega⟩
    have ha : (BitVec.ofNat 32 (s.latch.b.toNat + s.k.toNat)).toNat = s.latch.b.toNat + s.k.toNat := by
      rw [BitVec.toNat_ofNat]; omega
    have hk1 : (s.k + 1).toNat = s.k.toNat + 1 := by rw [BitVec.toNat_add]; simp; omega
    have hidx : ∀ j, s.latch.b.toNat + (s.k + 1).toNat + j = s.latch.b.toNat + s.k.toNat + (j + 1) :=
      fun j => by rw [hk1]; omega
    obtain ⟨es, hs, hp'⟩ : ∃ es, step s =
        .next { foldByte (BitVec.ofNat 32 (s.latch.b.toNat + s.k.toNat)) s with pending := es } ∧
        (es = List.replicate n .engine ++ rest ∨ es = [] ∧ rest = []) := by
      have hbyte := fun es => (engineStep_byte (s := { s with pending := es }) he ha).trans (if_pos (hr 0 (by omega)))
      rcases hp with h | ⟨h, h'⟩
      · exact ⟨_, by rw [step, h]; exact hbyte _, .inl rfl⟩
      · refine ⟨[], ?_, .inr ⟨rfl, h'⟩⟩
        rw [step, h]
        exact (show engineStep s = engineStep { s with pending := [] } by rw [← h]).trans (hbyte [])
    refine run_next hs ?_
    rw [ih (s := { foldByte _ s with pending := es }) hp' hb hop hbu (by change (s.k + 1).toNat + n ≤ s.latch.len.toNat; omega)
      (by change s.latch.b.toNat + (s.k + 1).toNat + n ≤ 2 ^ 32; omega)
      (fun j hj => by
        change isReadable s.params (BitVec.ofNat 32 (s.latch.b.toNat + (s.k + 1).toNat + j)) = true
        rw [hidx]; exact hr (j + 1) (by omega))]
    simp only [foldByte, hidx, ha, List.range_succ_eq_map, List.map_cons, List.map_map, Nat.add_zero]
    congr 2
    · rw [BitVec.add_assoc]; congr 1
      apply BitVec.eq_of_toNat_eq; simp; omega
    · simp [Function.comp_def]

/-! ## The events of a program -/

/-- A `wr` to a register (30_encoding.md rule R79). -/
theorem step_wr (s : State) (r : Reg) (v : Word) (rest : List Event) :
    step { s with pending := (Stmt.wr r v).event s.params :: rest } = writeReg r v { s with pending := rest } := by
  change hostWrite (s.params.base + regOffset r) .word v { s with pending := rest } = _
  rw [hostWrite]
  have h := access_word (p := s.params) (off := regOffset r) (by cases r <;> decide) (by cases r <;> decide)
  simp only [h]
  cases r <;> rfl

/-- A `rd` of a register. -/
theorem step_rd (s : State) (r : Reg) (rest : List Event) :
    step { s with pending := (Stmt.rd r).event s.params :: rest } =
      .next { s with pending := rest
                     history := .hostRead (s.params.base + regOffset r) (readReg r s) :: s.history } := by
  change hostRead (s.params.base + regOffset r) .word { s with pending := rest } = _
  rw [hostRead]
  have h := access_word (p := s.params) (off := regOffset r) (by cases r <;> decide) (by cases r <;> decide)
  simp only [h]
  cases r <;> rfl

/-- Engine events while BUSY = 0 pass without effect. -/
theorem run_idle_engines (n m : Nat) {s : State} (hb : s.busy = false) (rest : List Event) :
    Host.Core.run Sys2Proof.core (n + m) { s with pending := List.replicate n .engine ++ rest } =
      Host.Core.run Sys2Proof.core m { s with pending := rest } := by
  induction n with
  | zero => simp
  | succ n ih =>
    have h : step { s with pending := List.replicate (n + 1) .engine ++ rest } =
        .next { s with pending := List.replicate n .engine ++ rest } := by
      change engineStep { s with pending := List.replicate n .engine ++ rest } = _
      rw [engineStep, if_neg (by simp [hb])]
    rw [show n + 1 + m = n + m + 1 by omega, run_succ (n + m) h, ih]

end Sys2Proof.Machine
end

