-- ==== Sys2Proof/Laws/Wait.lean ====
section
/-! SUPPORT. A running command under the polling loop `wait` (30_encoding.md rule R80): what each engine event and each read of
STATUS does, by induction over the schedule. -/

namespace Sys2Proof.Machine

/-- A command as it will run: what it has latched, what stays fixed meanwhile, how many bytes it reads, its accumulator after
each, and its result. -/
structure CommandRun where
  latch  : Latch
  params : Params
  mem    : Memory
  a      : Word
  bytes  : Nat
  accAt  : Nat → Word
  result : Word

/-- The description fits the engine: each byte step is enabled at a Readable address and gives the next accumulator, and after
the last the command completes with the result. -/
structure CommandRun.Ok (c : CommandRun) : Prop where
  enabled : ∀ j < c.bytes, (c.latch.op = 1 ∨ c.latch.op = 2) ∧ c.latch.bufp = true ∧ j < c.latch.len.toNat ∧
    c.latch.b.toNat + j < 2 ^ 32 ∧ isReadable c.params (BitVec.ofNat 32 (c.latch.b.toNat + j)) = true
  bound   : c.bytes < 2 ^ 32
  fold    : ∀ j < c.bytes, ∀ s : State, s.params = c.params → s.latch = c.latch → s.acc = c.accAt j →
    accAfter (c.mem.read (c.latch.b.toNat + j)) s = c.accAt (j + 1)
  last    : (c.latch.op ≠ 1 ∧ c.latch.op ≠ 2) ∨ c.latch.bufp = false ∨ c.latch.len.toNat ≤ c.bytes
  value   : ∀ s : State, s.latch = c.latch → s.acc = c.accAt c.bytes → commandResult s = some c.result

/-- The command runs and has read `j` bytes. -/
structure CommandRun.At (c : CommandRun) (j : Nat) (s : State) : Prop where
  busy   : s.busy = true
  done   : s.done = false
  latch  : s.latch = c.latch
  params : s.params = c.params
  mem    : s.mem = c.mem
  a      : s.a = c.a
  k      : s.k.toNat = j
  acc    : s.acc = c.accAt j

/-- BUSY and DONE as a read of STATUS shows them. -/
theorem statusWord_busy_done (s : State) :
    (statusWord s).getLsbD 0 = s.busy ∧ (statusWord s).getLsbD 1 = s.done := by
  unfold statusWord
  generalize s.errcode.code = c
  generalize s.err = e
  generalize s.done = d
  generalize s.busy = b
  revert c e d b
  decide

/-- A `rd` that comes next. -/
theorem step_rd_next {s : State} {r : Reg} {p : Params} {rest : List Event} (hs : s.params = p)
    (hp : s.pending = (Stmt.rd r).event p :: rest) :
    step s = .next { s with pending := rest, history := .hostRead (p.base + regOffset r) (readReg r s) :: s.history } := by
  subst hs
  have h := step_rd s r rest
  rw [← hp] at h
  exact h

/-- One engine event reads the next byte. -/
theorem CommandRun.step_byte {c : CommandRun} (hc : c.Ok) {j : Nat} {s : State} (h : c.At j s) (hj : j < c.bytes)
    {rest : List Event} (hp : s.pending = .engine :: rest) :
    ∃ t, step s = .next t ∧ c.At (j + 1) t ∧ t.pending = rest ∧ hostReads t.history = hostReads s.history ∧
      (engineReads t.history).length = (engineReads s.history).length + 1 := by
  obtain ⟨hop, hb, hl, ht, hr⟩ := hc.enabled j hj
  have hbound := hc.bound
  have he : byteStepEnabled { s with pending := rest } = true := by
    rw [byteStepEnabled_iff]
    change s.busy = true ∧ (s.latch.op = 1 ∨ s.latch.op = 2) ∧ s.latch.bufp = true ∧ s.k.toNat < s.latch.len.toNat
    rw [h.latch, h.k]
    exact ⟨h.busy, hop, hb, hl⟩
  have ha : (BitVec.ofNat 32 (c.latch.b.toNat + j)).toNat = c.latch.b.toNat + j := by rw [BitVec.toNat_ofNat]; omega
  have hs := engineStep_byte (s := { s with pending := rest }) he (ha.trans (by
    change _ = s.latch.b.toNat + s.k.toNat
    rw [h.latch, h.k]))
  rw [if_pos (show isReadable s.params _ = true by rw [h.params]; exact hr)] at hs
  refine ⟨foldByte (BitVec.ofNat 32 (c.latch.b.toNat + j)) { s with pending := rest }, by rw [step, hp]; exact hs,
    ⟨h.busy, h.done, h.latch, h.params, h.mem, h.a, ?_, ?_⟩, rfl, rfl, rfl⟩
  · change (s.k + 1).toNat = j + 1
    rw [BitVec.toNat_add, h.k]
    simp
    omega
  · change accAfter (s.mem.read _) _ = _
    rw [h.mem, ha]
    exact hc.fold j hj _ h.params h.latch h.acc

/-- `n` engine events read the next `n` bytes. -/
theorem CommandRun.run_bytes {c : CommandRun} (hc : c.Ok) (rest : List Event) (n : Nat) : ∀ (j : Nat) {s : State},
    c.At j s → j + n ≤ c.bytes → s.pending = List.replicate n .engine ++ rest →
    ∃ t : State, Host.Core.run Sys2Proof.core n s = .next t ∧ c.At (j + n) t ∧ t.pending = rest ∧
      hostReads t.history = hostReads s.history ∧
      (engineReads t.history).length = n + (engineReads s.history).length := by
  induction n with
  | zero => intro j s h _ hp; exact ⟨s, rfl, h, hp, rfl, by simp⟩
  | succ n ih =>
    intro j s h hle hp
    obtain ⟨t, hs, ht, hp', hh, hl⟩ := c.step_byte hc h (by omega) (rest := List.replicate n .engine ++ rest)
      (by rw [hp, List.replicate_succ]; rfl)
    obtain ⟨u, hr, hu, hp'', hh', hl'⟩ := ih (j + 1) ht (by omega) hp'
    exact ⟨u, run_next hs hr, by rw [show j + (n + 1) = j + 1 + n by omega]; exact hu, hp'', hh'.trans hh, by omega⟩

/-- The reads of `wait` that come before the command has ended: each shows BUSY = 1 and DONE = 0. -/
theorem CommandRun.run_polls {c : CommandRun} (hc : c.Ok) (rest : List Event) (front : List Nat) :
    ∀ (j : Nat) {s : State}, c.At j s → j + front.sum ≤ c.bytes → s.pending = wait c.params front ++ rest →
    ∃ (t : State) (early : List Word), Host.Core.run Sys2Proof.core (wait c.params front).length s = .next t ∧
      c.At (j + front.sum) t ∧ t.pending = rest ∧
      hostReads t.history = early.map (fun w => (c.params.base + 0x14, w)) ++ hostReads s.history ∧
      early.length = front.length ∧ (∀ w ∈ early, w.getLsbD 0 = true ∧ w.getLsbD 1 = false) ∧
      (engineReads t.history).length = front.sum + (engineReads s.history).length := by
  induction front with
  | nil => intro j s h _ hp; exact ⟨s, [], rfl, h, hp, rfl, rfl, by simp, by simp⟩
  | cons n front ih =>
    intro j s h hle hp
    rw [List.sum_cons] at hle
    have hw : wait c.params (n :: front) =
        List.replicate n .engine ++ ((Stmt.rd .status).event c.params :: wait c.params front) := by simp [wait]
    rw [hw] at hp ⊢
    rw [List.append_assoc] at hp
    obtain ⟨t, hr, ht, hp', hh, hl⟩ := c.run_bytes hc _ n j h (by omega) hp
    have hs := step_rd_next ht.params hp'
    obtain ⟨u, early, hr', hu, hp'', hh', hl', hw', hn⟩ := ih (j + n)
      (s := { t with
        pending := wait c.params front ++ rest
        history := .hostRead (c.params.base + regOffset .status) (readReg .status t) :: t.history })
      ⟨ht.busy, ht.done, ht.latch, ht.params, ht.mem, ht.a, ht.k, ht.acc⟩ (by omega) rfl
    refine ⟨u, early ++ [statusWord t], ?_, by rw [List.sum_cons, ← Nat.add_assoc]; exact hu, hp'', ?_, by simp [hl'], ?_, ?_⟩
    · rw [List.length_append, List.length_replicate, List.length_cons, run_add _ hr]
      exact run_next hs hr'
    · rw [hh', List.map_append, List.append_assoc]
      congr 1
      change (c.params.base + 0x14, statusWord t) :: hostReads t.history = _
      rw [hh]
      rfl
    · intro w hm
      rcases List.mem_append.1 hm with h | h
      · exact hw' w h
      · rw [List.mem_singleton.1 h, (statusWord_busy_done t).1, (statusWord_busy_done t).2]
        exact ⟨ht.busy, ht.done⟩
    · rw [hn, List.sum_cons]
      change _ + (engineReads t.history).length = _
      omega

/-- A whole `wait` and the read of RESULT: the last read of STATUS shows BUSY = 0 and DONE = 1, and RESULT is the result. -/
theorem CommandRun.run_wait {c : CommandRun} (hc : c.Ok) (front : List Nat) (n : Nat) {s : State} (h : c.At 0 s)
    (h1 : front.sum ≤ c.bytes) (h2 : c.bytes < front.sum + n)
    (hp : s.pending = wait c.params (front ++ [n]) ++ [(Stmt.rd .result).event c.params]) :
    ∃ (t : State) (early : List Word) (last : Word),
      Host.Core.run Sys2Proof.core ((wait c.params (front ++ [n])).length + 1) s = .next t ∧
      hostReads t.history = (c.params.base + 0x10, c.result) :: (c.params.base + 0x14, last) ::
        (early.map (fun w => (c.params.base + 0x14, w)) ++ hostReads s.history) ∧
      early.length = front.length ∧ (∀ w ∈ early, w.getLsbD 0 = true ∧ w.getLsbD 1 = false) ∧
      last.getLsbD 0 = false ∧ last.getLsbD 1 = true ∧ t.result = c.result ∧ t.a = c.a ∧ t.mem = c.mem ∧
      (engineReads t.history).length = c.bytes + (engineReads s.history).length := by
  have hw : wait c.params (front ++ [n]) =
      wait c.params front ++ (List.replicate n .engine ++ [(Stmt.rd .status).event c.params]) := by simp [wait]
  obtain ⟨m, rfl⟩ : ∃ m, n = (c.bytes - front.sum) + (1 + m) := ⟨n - (c.bytes - front.sum) - 1, by omega⟩
  rw [hw] at hp ⊢
  simp only [List.replicate_add, List.append_assoc] at hp
  obtain ⟨t, early, hr, ht, hp', hh, hl, hm, hn⟩ := c.run_polls hc _ front 0 h (by omega) hp
  obtain ⟨u, hr', hu, hp'', hh', hn'⟩ := c.run_bytes hc _ (c.bytes - front.sum) _ ht (by omega) hp'
  rw [show 0 + front.sum + (c.bytes - front.sum) = c.bytes by omega] at hu
  have hpu : u.pending = .engine :: (List.replicate m .engine ++
      [(Stmt.rd .status).event c.params, (Stmt.rd .result).event c.params]) := by rw [hp'']; rfl
  generalize hes : List.replicate m Event.engine ++
    [(Stmt.rd .status).event c.params, (Stmt.rd .result).event c.params] = es at hpu
  have he : byteStepEnabled { u with pending := es } = false := by
    rw [← Bool.not_eq_true, byteStepEnabled_iff]
    change ¬ (u.busy = true ∧ (u.latch.op = 1 ∨ u.latch.op = 2) ∧ u.latch.bufp = true ∧ u.k.toNat < u.latch.len.toNat)
    rw [hu.latch, hu.k]
    rintro ⟨-, hop, hb, hk⟩
    rcases hc.last with h | h | h
    · exact hop.elim h.1 h.2
    · rw [h] at hb; cases hb
    · omega
  have hs : step u = .next (completed c.result { u with pending := es }) := by
    unfold step
    rw [hpu]
    exact engineStep_completion (s := { u with pending := es }) hu.busy he (hc.value _ hu.latch hu.acc)
  have hidle := run_idle_engines m 2 (s := completed c.result u) rfl
    [(Stmt.rd .status).event c.params, (Stmt.rd .result).event c.params]
  have hread := step_rd_next (r := .status) (p := c.params)
    (s := { completed c.result u with
      pending := [(Stmt.rd .status).event c.params, (Stmt.rd .result).event c.params] }) hu.params rfl
  have hresult := step_rd_next (r := .result) (p := c.params)
    (s := { completed c.result u with
      pending := [(Stmt.rd .result).event c.params]
      history := .hostRead (c.params.base + regOffset .status) (statusWord (completed c.result u)) :: u.history })
    hu.params rfl
  refine ⟨{ completed c.result u with
      pending := []
      history := .hostRead (c.params.base + regOffset .result) c.result ::
        .hostRead (c.params.base + regOffset .status) (statusWord (completed c.result u)) :: u.history },
    early, statusWord (completed c.result u), ?_, ?_, hl, hm, (statusWord_busy_done _).1, (statusWord_busy_done _).2, rfl,
    hu.a, hu.mem, ?_⟩
  · rw [show (wait c.params front ++ (List.replicate (c.bytes - front.sum + (1 + m)) Event.engine ++
        [(Stmt.rd .status).event c.params])).length + 1 =
        (wait c.params front).length + ((c.bytes - front.sum) + ((m + 2) + 1)) by simp; omega, run_add _ hr, run_add _ hr']
    refine run_next hs ?_
    subst hes
    exact hidle.trans (run_next hread (run_next hresult rfl))
  · change (c.params.base + 0x10, c.result) :: (c.params.base + 0x14, statusWord _) :: hostReads u.history = _
    rw [hh', hh]
  · change (engineReads u.history).length = _
    rw [hn', hn]
    omega

end Sys2Proof.Machine
end

