-- ==== Sys2Proof/Tests/Slice0.lean ====
section
/-! SUPPORT. Tests of the model's own work, with expected values from 30_encoding.md and 95_test_vectors.md, and for each
statement with hypotheses a state and operands that meet them together. -/

namespace Sys2Proof.Tests

open Sys2Proof Sys2Proof.Machine

/-! ## Small states -/

/-- A MODBUS and IEEE build whose window is at 0x40000000, on a platform that gives the addresses 0x1000 to 0x10FF and
0xFFFFFFFF. -/
def params : Params :=
  { poly16Sel := .modbus, poly32Sel := .ieee, base := 0x40000000
    readable := [⟨0x1000, 0x10FF⟩, ⟨0xFFFFFFFF, 0xFFFFFFFF⟩] }

/-- An idle block with the given operands; the data space holds 02 07 at 0x1000. -/
def idle (a b len : Word) : State :=
  { State.resetWith params [(0x1000, 0x02), (0x1001, 0x07)] with a := a, b := b, len := len }

/-- The block after the issue of a command. -/
def running (i : Instr) (a b len : Word) : State := issued i (idle a b len)

/-- A block that has recorded an ILLEGAL_OP of the word 0x13. -/
def erred : State := (idle 0xFFFF 0x1000 2).withError .illegalOp 0x13

/-- A CRC16 command over 02 07 whose two bytes are read: its accumulator is 0x1241 (95_test_vectors.md S6). -/
def folded : State :=
  { running (.crc16 true) 0xFFFF 0x1000 2 with
    acc := 0x1241, k := 2, history := [.engineRead 0x1001 0x07, .engineRead 0x1000 0x02] }

/-! ## Well-formedness: an ill-formed term for each check -/

theorem test_wf_refuses_reserved_bits : ({ op := 1, bufp := false, res := 1 } : Fields).resOk = false ∧
    ({ op := 1, bufp := false, res := 1 } : Fields).wf = false := by decide

theorem test_wf_refuses_op_0 : ({ op := 0, bufp := false, res := 0 } : Fields).opOk = false ∧
    ({ op := 0, bufp := false, res := 0 } : Fields).wf = false := by decide

theorem test_wf_refuses_op_7 : ({ op := 7, bufp := true, res := 0 } : Fields).opOk = false ∧
    ({ op := 7, bufp := true, res := 0 } : Fields).wf = false := by decide

theorem test_wf_refuses_buffer_of_gcd : ({ op := 3, bufp := true, res := 0 } : Fields).bufpOk = false ∧
    ({ op := 3, bufp := true, res := 0 } : Fields).wf = false := by decide

theorem test_wf_accepts_crc_with_buffer : ({ op := 2, bufp := true, res := 0 } : Fields).wf = true := by decide

/-! ## Decoding: words written out bit by bit from 30_encoding.md rules R70 to R73 -/

theorem test_decode_crc16 : decode 0b00000000000000000000000000000001 = .ok (.crc16 false) ∧
    decode 0b00000000000000000000000000010001 = .ok (.crc16 true) := by decide
theorem test_decode_crc32 : decode 0b00000000000000000000000000000010 = .ok (.crc32 false) ∧
    decode 0b00000000000000000000000000010010 = .ok (.crc32 true) := by decide
theorem test_decode_gcd : decode 0b00000000000000000000000000000011 = .ok .gcd := by decide
theorem test_decode_grayenc : decode 0b00000000000000000000000000000100 = .ok .grayenc := by decide
theorem test_decode_graydec : decode 0b00000000000000000000000000000101 = .ok .graydec := by decide
theorem test_decode_isqrt : decode 0b00000000000000000000000000000110 = .ok .isqrt := by decide

/-- The illegal words of 95_test_vectors.md §3.1. -/
theorem test_decode_rejects : ([0x0, 0x10, 0x7, 0xF, 0x13, 0x14, 0x15, 0x16, 0x21, 0x80000001, 0xFFFFFFFF] : List Word).all
    (fun v => !(decode v).toBool) = true := by decide

/-- Each constructor's word, from the table of R74. -/
theorem test_encode_words : encode (.crc16 false) = 0x01 ∧ encode (.crc16 true) = 0x11 ∧ encode (.crc32 false) = 0x02 ∧
    encode (.crc32 true) = 0x12 ∧ encode .gcd = 0x03 ∧ encode .grayenc = 0x04 ∧ encode .graydec = 0x05 ∧
    encode .isqrt = 0x06 := by decide

theorem test_table_word : decodeTableWord 32 0x12 = some (.crc32 true) ∧ decodeTableWord 32 0x16 = none := by decide

/-- Every row of the opcode table, as `withFetchWord` places it, is the first command of a block just reset. -/
theorem test_first_command : ∀ w ∈ [0x01, 0x11, 0x02, 0x12, 0x03, 0x04, 0x05, 0x06],
    (match step (State.reset.withFetchWord 32 w) with
      | .next t => t.busy && t.latch.op == BitVec.ofNat 4 (w % 16)
      | .fault _ => false
      | .refused _ => false) = true := by decide

/-! ## One step of each operation (95_test_vectors.md §3.2 to §3.6) -/

/-- The value a step leaves in a field, for comparison. -/
def after (o : Host.Outcome State Fault Refusal) (f : State → Word) : Option Word :=
  match o with
  | .next t => some (f t)
  | .fault _ => none
  | .refused _ => none

/-- Fold of 07 into 0x813E, the second byte of source vector S6, and the result. -/
theorem test_crc16_second_byte :
    after (step { folded with k := 1, acc := 0x813E }) (·.acc) = some 0x1241 ∧
    after (step folded) (·.result) = some 0x1241 := by decide

/-- A[31:16] is ignored at issue: A = 0x1234FFFF starts at 0xFFFF. -/
theorem test_crc16_low_half : after (exec (.crc16 true) (idle 0x1234FFFF 0x1000 2)) (·.acc) = some 0x0000FFFF := by decide

/-- A = 0xFFFFFFFF and a byte 00 give 0x2DFD1072; the byte at 0xFFFFFFFF, the top of the data space, is 00. -/
theorem test_crc32_top_byte : after (step (running (.crc32 true) 0xFFFFFFFF 0xFFFFFFFF 1)) (·.acc) = some 0x2DFD1072 := by
  decide

/-- Absent buffer: RESULT = A, with LEN = 0xFFFFFFFF (all 32 bits of A). -/
theorem test_crc32_absent : after (step (running (.crc32 false) 0xABCD1234 0x1000 0xFFFFFFFF)) (·.result) =
    some 0xABCD1234 := by decide

theorem test_gcd_common_power : after (step (running .gcd 0x80000000 0xC0000000 0)) (·.result) = some 0x40000000 := by decide
theorem test_gcd_1071_462 : after (step (running .gcd 1071 462 0)) (·.result) = some 21 := by decide
theorem test_grayenc : after (step (running .grayenc 0x12345678 0 0)) (·.result) = some 0x1B2E7D44 := by decide
theorem test_graydec : after (step (running .graydec 0x12345678 0 0)) (·.result) = some 0x1C279BAF := by decide
theorem test_isqrt_below_square : after (step (running .isqrt 0xFFFE0000 0 0)) (·.result) = some 0xFFFE := by decide
theorem test_isqrt_87539319 : after (step (running .isqrt 87539319 0 0)) (·.result) = some 9356 := by decide

/-! ## One event of each kind (95_test_vectors.md §3.2, §3.7, P5) -/

theorem test_illegal_status : after (step ((idle 0 0 0).withEvent (cmdEvent params 0x13))) statusWord = some 0x14 := by decide
theorem test_range_status : after (step ((idle 0 0xFFFFFFFF 2).withEvent (cmdEvent params 0x11))) statusWord = some 0x34 := by
  decide
theorem test_memfault_status : after (step (running (.crc16 true) 0 0x3000 4)) statusWord = some 0x44 ∧
    after (step (running (.crc16 true) 0 0x3000 4)) (·.errinfo) = some 0x3000 := by decide
theorem test_busy_write_len : after (step ((running .gcd 1 2 3).withEvent (.hostWrite 0x4000000C .word 5))) (·.len) = some 3 ∧
    after (step ((running .gcd 1 2 3).withEvent (.hostWrite 0x4000000C .word 5))) (·.errinfo) = some 0x0C := by decide
theorem test_clear_needs_bit_2 : after (step (erred.withEvent (.hostWrite 0x40000014 .word 3))) statusWord = some 0x14 ∧
    after (step (erred.withEvent (.hostWrite 0x40000014 .word 4))) statusWord = some 0x00 := by decide
theorem test_configuration : readReg .config { idle 0 0 0 with params := { params with poly16Sel := .x25 } } = 1 ∧
    readReg .poly16 { idle 0 0 0 with params := { params with poly16Sel := .x25 } } = 0x8408 ∧
    readReg .poly32 (idle 0 0 0) = 0xEDB88320 := by decide
theorem test_lanes : lane 0x12345678 0 = 0x78 ∧ lane 0x12345678 3 = 0x12 := by decide
theorem test_write_of_unlisted_value : Memory.write [(0x1000, 0x02)] 0x1000 0x00 = [] ∧
    Memory.write [(0x1000, 0x02)] 0x1001 0x07 = [(0x1000, 0x02), (0x1001, 0x07)] := by decide
theorem test_identity : identity params = "ETUDE-CORE/P16=MODBUS/P32=IEEE" := by decide

/-! ## The hypotheses of the statements are met -/

theorem idle_inv : (idle 0xFFFF 0x1000 2).Inv where
  busyDone := by decide
  errCode := by decide
  infoNone := by decide
  infoIllegal := by intro h; cases h
  infoBusy := by decide
  infoRange := by decide
  infoFault := by decide
  memWf := by decide
  running := by intro h; cases h

theorem folded_running : folded.Running where
  legal := by decide
  latA := by decide
  latB := by decide
  latLen := by decide
  fits := by decide
  index := by decide
  noIndex := by decide
  acc16 := by decide

theorem folded_inv : folded.Inv where
  busyDone := by decide
  errCode := by decide
  infoNone := by decide
  infoIllegal := by intro h; cases h
  infoBusy := by decide
  infoRange := by decide
  infoFault := by decide
  memWf := by decide
  running := fun _ => folded_running

theorem erred_inv : erred.Inv where
  busyDone := by decide
  errCode := by decide
  infoNone := by decide
  infoIllegal := fun _ => ⟨.bufpNotAllowed 3, by decide⟩
  infoBusy := by decide
  infoRange := by decide
  infoFault := by decide
  memWf := by decide
  running := by intro h; cases h

theorem not_past_top (i : Instr) (a : Word) : ¬ PastTop i (idle a 0x1000 2) := by
  rintro ⟨-, -, h⟩; revert h; change ¬ 2 ^ 32 < (0x1000 : Word).toNat + (2 : Word).toNat; decide

theorem past_top (a : Word) : PastTop (.crc16 true) (idle a 0xFFFFFFFF 2) ∧ PastTop (.crc32 true) (idle a 0xFFFFFFFF 2) :=
  ⟨⟨.inl rfl, by change 0 < (2 : Word).toNat; decide,
      by change 2 ^ 32 < (0xFFFFFFFF : Word).toNat + (2 : Word).toNat; decide⟩,
    ⟨.inr rfl, by change 0 < (2 : Word).toNat; decide,
      by change 2 ^ 32 < (0xFFFFFFFF : Word).toNat + (2 : Word).toNat; decide⟩⟩

/-- A buffer that ends at 0xFFFFFFFF does not pass the top. -/
theorem not_past_top_at_the_edge : ¬ PastTop (.crc16 true) (idle 0 0xFFFFFFFF 1) := by
  rintro ⟨-, -, h⟩; revert h; change ¬ 2 ^ 32 < (0xFFFFFFFF : Word).toNat + (1 : Word).toNat; decide

theorem witness_DecodeFollowsTheTable : ∃ v : Word, v ∉ legalWords := ⟨0x13, by decide⟩

theorem witness_IllegalSpaceIsNeverIssued : ∃ (s : State) (v : Word), v ∉ legalWords ∧ s.busy = false :=
  ⟨idle 0 0 0, 0xFFFFFFFF, by decide⟩

theorem witness_ReservedBitsAreIllegal : ∃ v : Word, 32 ≤ v.toNat := ⟨0x20, by decide⟩

theorem witness_StepRunsTheDecodedCommand :
    (∃ (s : State) (v : Word) (i : Instr) (rest : List Event), s.pending = cmdEvent s.params v :: rest ∧ decode v = .ok i) ∧
    ∃ (w : Nat) (i : Instr), decodeTableWord 32 w = some i :=
  ⟨⟨(idle 0 0 0).withEvent (cmdEvent params 0x11), 0x11, .crc16 true, [], rfl, by decide⟩, 0x06, .isqrt, by decide⟩

theorem witness_EngineActsOnlyWhileBusy : (∃ s : State, s.pending = []) ∧ ∃ s : State, s.busy = false :=
  ⟨⟨idle 0 0 0, rfl⟩, idle 0 0 0, rfl⟩

/-- The offsets where the clauses meet: 0x0C, 0x10 and 0x3C; the first clause's offsets are no offset of the third. -/
theorem witness_WriteWhileBusy :
    (running .gcd 1 2 3).busy = true ∧ (0x00 : Word) ∈ ([0x00, 0x04, 0x08, 0x0C] : List Word) ∧
    (0x0C : Word) ∈ ([0x00, 0x04, 0x08, 0x0C] : List Word) ∧
    (∀ off ∈ ([0x10, 0x3C] : List Word), off.toNat % 4 = 0 ∧ 0x10 ≤ off.toNat ∧ off ≠ 0x14 ∧ off.toNat < 0x40) ∧
    ∀ off ∈ ([0x00, 0x04, 0x08, 0x0C] : List Word), off.toNat < 0x10 := by simp [running, issued]

/-- Both sides of the rule's edge: B + LEN = 2^32 + 1 and B + LEN = 2^32, and the two forms it does not apply to. -/
theorem witness_RangeRuleAppliesExactlyPastTheTop :
    (idle 0 0xFFFFFFFF 2).busy = false ∧ (Instr.crc16 true).op = 1 ∧
    (Instr.crc32 true).op = 2 ∧ 0 < (idle 0 0xFFFFFFFF 2).len.toNat ∧
    2 ^ 32 < (idle 0 0xFFFFFFFF 2).b.toNat + (idle 0 0xFFFFFFFF 2).len.toNat ∧
    (idle 0 0xFFFFFFFF 1).b.toNat + (idle 0 0xFFFFFFFF 1).len.toNat ≤ 2 ^ 32 ∧ (idle 0 0xFFFFFFFF 0).len = 0 ∧
    (Instr.crc32 false).bufp = false := by decide

theorem witness_IssueFollowsTheRule :
    ((idle 0 0 0).busy = false ∧ decode 0x13 = .error (.bufpNotAllowed 3)) ∧
    ((idle 0 0xFFFFFFFF 2).busy = false ∧ decode 0x11 = .ok (.crc16 true) ∧ PastTop (.crc16 true) (idle 0 0xFFFFFFFF 2)) ∧
    ((idle 0 0xFFFFFFFF 1).busy = false ∧ ¬ PastTop (.crc16 true) (idle 0 0xFFFFFFFF 1)) :=
  ⟨⟨rfl, by decide⟩, ⟨rfl, by decide, (past_top 0).1⟩, rfl, not_past_top_at_the_edge⟩

theorem witness_EveryCommandIssues : ∀ i : Instr, (idle 0 0x1000 2).busy = false ∧ ¬ PastTop i (idle 0 0x1000 2) :=
  fun i => ⟨rfl, not_past_top i 0⟩

/-- A command write that is issued, one that is dropped, and one that is turned away. -/
theorem witness_CommandWriteFrame : (∃ t, exec .gcd (idle 8 12 0) = .next t ∧ t.busy = true) ∧
    (∃ t, exec .gcd (running .gcd 8 12 0) = .next t ∧ t.err = true) ∧
    ∃ t, exec (.crc16 true) (idle 0 0xFFFFFFFF 2) = .next t ∧ t.errcode = .range :=
  ⟨⟨_, exec_issue rfl (by rintro ⟨h | h, -⟩ <;> cases h), rfl⟩, ⟨_, exec_busy _ rfl, rfl⟩,
    ⟨_, exec_range rfl (past_top 0).1, rfl⟩⟩

/-- A byte the platform gives and one it does not, and the last byte of the data space. -/
theorem witness_ByteStepFollowsTheRule :
    (∃ (s : State) (addr : Word), s.busy = true ∧ (s.latch.op = 1 ∨ s.latch.op = 2) ∧ s.latch.bufp = true ∧
      s.k.toNat < s.latch.len.toNat ∧ addr.toNat = s.latch.b.toNat + s.k.toNat ∧ isReadable s.params addr = true) ∧
    (∃ (s : State) (addr : Word), s.busy = true ∧ (s.latch.op = 1 ∨ s.latch.op = 2) ∧ s.latch.bufp = true ∧
      s.k.toNat < s.latch.len.toNat ∧ addr.toNat = s.latch.b.toNat + s.k.toNat ∧ isReadable s.params addr = false) ∧
    ∃ (s : State) (addr : Word), s.busy = true ∧ (s.latch.op = 1 ∨ s.latch.op = 2) ∧ s.latch.bufp = true ∧
      s.k.toNat < s.latch.len.toNat ∧ addr.toNat = s.latch.b.toNat + s.k.toNat ∧ addr = 0xFFFFFFFF :=
  ⟨⟨running (.crc16 true) 0 0x1000 2, 0x1000, by decide⟩, ⟨running (.crc32 true) 0 0x3000 4, 0x3000, by decide⟩,
    running (.crc32 true) 0 0xFFFFFFFF 1, 0xFFFFFFFF, by decide⟩

/-- Each operation at its completion: a CRC at `k = lat_len` and one without a buffer, and the four others. -/
theorem witness_CompletionFollowsTheRule :
    (folded.busy = true ∧ folded.latch.op = 1 ∧ folded.latch.len.toNat ≤ folded.k.toNat) ∧
    ((running (.crc32 false) 0 0 1).busy = true ∧ (running (.crc32 false) 0 0 1).latch.op = 2 ∧
      (running (.crc32 false) 0 0 1).latch.bufp = false) ∧
    ∀ i ∈ [Instr.gcd, .grayenc, .graydec, .isqrt], (running i 0 0 1).busy = true ∧ (running i 0 0 1).latch.op = i.op ∧
      (running i 0 0 1).latch.op ≠ 1 ∧ (running i 0 0 1).latch.op ≠ 2 := by decide

theorem witness_EngineStepFrame : (∃ t, engineStep (running (.crc16 true) 0 0x1000 2) = .next t ∧
      t.history = [.engineRead 0x1000 0x02]) ∧
    ∃ t, engineStep folded = .next t ∧ t.history = folded.history :=
  ⟨⟨_, rfl, by decide⟩, _, rfl, rfl⟩

theorem witness_EveryIssuedCommandEnds : ∃ s : State, s.Inv ∧ s.busy = true ∧ s.pending = [] :=
  ⟨folded, folded_inv, rfl, rfl⟩

theorem witness_GcdCommandFollowsTheRule : (idle 8 12 0).busy = false ∧ (running .gcd 8 12 0).busy = true ∧
    (0x80000000 : Word) ≠ 0 := by decide

theorem witness_GrayencCommandFollowsTheRule : (idle 2 0 0).busy = false ∧ (running .grayenc 2 0 0).busy = true := by decide

theorem witness_GraydecCommandFollowsTheRule : (idle 3 0 0).busy = false ∧ (running .graydec 3 0 0).busy = true := by decide

theorem witness_IsqrtCommandFollowsTheRule : (idle 4 0 0).busy = false ∧ (running .isqrt 4 0 0).busy = true := by decide

/-- A CRC16 and a CRC32 over two Readable bytes, and a CRC16 without a buffer. -/
theorem witness_CrcCommandComputesItsBuffer : ∀ i ∈ [Instr.crc16 true, .crc32 true, .crc16 false],
    (i.op = 1 ∨ i.op = 2) ∧ (idle 0xFFFF 0x1000 2).busy = false ∧ (idle 0xFFFF 0x1000 2).pending = [] ∧
    ¬ PastTop i (idle 0xFFFF 0x1000 2) ∧ BufferReadable i (idle 0xFFFF 0x1000 2) := by
  intro i hi
  refine ⟨?_, rfl, rfl, not_past_top i 0xFFFF, ?_⟩
  · revert i; decide
  · unfold BufferReadable; revert i; decide

/-- A buffer of four bytes at 0x10FF of which only the first is Readable. -/
theorem witness_CrcStopsAtTheLowestUnreadableByte :
    (Instr.crc16 true).op = 1 ∧ (idle 0 0x10FF 4).busy = false ∧ (idle 0 0x10FF 4).pending = [] ∧
    ¬ PastTop (.crc16 true) (idle 0 0x10FF 4) ∧ 1 < bytesToRead (.crc16 true) (idle 0 0x10FF 4) ∧
    (∀ k < 1, isReadable (idle 0 0x10FF 4).params (BitVec.ofNat 32 ((idle 0 0x10FF 4).b.toNat + k)) = true) ∧
    isReadable (idle 0 0x10FF 4).params (BitVec.ofNat 32 ((idle 0 0x10FF 4).b.toNat + 1)) = false ∧
    (idle 0 0x10FF 4).err = false ∧ erred.err = true := by
  refine ⟨rfl, rfl, rfl, ?_, by decide, by decide, by decide, rfl, rfl⟩
  rintro ⟨-, -, h⟩; revert h; decide

theorem witness_CrcWithoutBytesReturnsItsAccumulator :
    (idle 0xABCD 0xFFFFFFFF 0).busy = false ∧ (idle 0xABCD 0xFFFFFFFF 0).pending = [] ∧ (Instr.crc16 true).op = 1 ∧
    (idle 0xABCD 0xFFFFFFFF 0).len = 0 ∧ (Instr.crc32 false).op = 2 ∧ (Instr.crc32 false).bufp = false := by decide

theorem folded_folds : folded.FoldsReads := fun _ _ => by decide

theorem witness_CompletedCrcIsTheFoldOfTheBytesRead : folded.Inv ∧ folded.FoldsReads ∧ folded.busy = true ∧
    crcLatched folded = true ∧ folded.latch.bufp = true ∧ ∃ t, engineStep folded = .next t ∧ t.done = true :=
  ⟨folded_inv, folded_folds, rfl, by decide, rfl, _, rfl, rfl⟩

theorem witness_TablesHoldTheListedEntries : params.poly16Sel = .modbus ∧ params.poly32Sel = .ieee ∧
    ({ params with poly16Sel := .x25 } : Params).poly16Sel = .x25 ∧
    ({ params with poly32Sel := .crc32cAlt } : Params).poly32Sel = .crc32cAlt := by decide

theorem witness_SourceCheckValues : ∃ p : Params, p.poly16Sel = .modbus ∧ p.poly32Sel = .ieee := ⟨params, rfl, rfl⟩

theorem witness_GcdLaws : gcd32 8 12 ≠ 0 ∧ gcd32 0 0 = 0 := by decide

theorem witness_GrayDecodeBitIsTheXorOfTheBitsAbove : 31 < 32 ∧ ([8, 1, 16, 2, 4] : List Nat).Perm [1, 2, 4, 8, 16] := by
  decide

/-- An erred block whose next event is a write of another illegal word. -/
theorem witness_ErrorIsStickyUntilCleared : ∃ s t : State, step s = .next t ∧ s.err = true ∧
    (∀ rest, s.pending ≠ .reset :: rest) ∧
    (∀ v rest, s.pending = .hostWrite (s.params.base + 0x14) .word v :: rest → v.getLsbD 2 = false) :=
  ⟨erred.withEvent (cmdEvent params 0xFFFFFFFF), _, rfl, rfl, (by intro r h; injection h with h; cases h), by
    intro v rest h
    injection h with h
    injection h with h
    exact absurd h (by decide)⟩

theorem witness_StatusWriteClearsTheError : (4 : Word).getLsbD 2 = true ∧ (3 : Word).getLsbD 2 = false := by decide

/-- The first and the last offset of the window. -/
theorem witness_HostReadReturnsTheRegister : ∀ off ∈ ([0x00, 0x24, 0x28, 0x3C] : List Word),
    off.toNat % 4 = 0 ∧ off.toNat < 0x40 := by simp

theorem witness_ConfigurationRegistersAreConstant :
    (∀ off ∈ ([0x1C, 0x20, 0x24] : List Word), off ∈ ([0x1C, 0x20, 0x24] : List Word)) ∧
    ({ params with poly16Sel := .x25 } : Params).poly16Sel = .x25 ∧
    ({ params with poly32Sel := .crc32cAlt } : Params).poly32Sel = .crc32cAlt ∧
    ∃ t, step ((idle 0 0 0).withEvent .reset) = .next t := ⟨fun _ h => h, rfl, rfl, _, rfl⟩

theorem witness_OperandWriteWhileIdle : ∃ s : State, s.busy = false := ⟨idle 0 0 0, rfl⟩

theorem witness_ReadOnlyWriteHasNoEffect : ∀ off ∈ ([0x10, 0x18, 0x24, 0x3C] : List Word),
    off.toNat % 4 = 0 ∧ 0x10 ≤ off.toNat ∧ off ≠ 0x14 ∧ off.toNat < 0x40 := by simp

theorem witness_OtherAccessesAreRefused : ((0x04 : Word).toNat < 0x40 ∧ Width.byte ≠ Width.word) ∧
    ((0x3F : Word).toNat < 0x40 ∧ (0x3F : Word).toNat % 4 ≠ 0) := by decide

theorem witness_ResetMeetsTheInvariants : ∃ m : Memory, m ≠ [] ∧ m.wf = true :=
  ⟨[(0x1000, 0x02), (0xFFFFFFFF, 0x07)], by decide⟩

theorem witness_StepKeepsTheInvariant : ∃ s t : State, s.Inv ∧ step s = .next t ∧ t.done = true :=
  ⟨folded, _, folded_inv, rfl, rfl⟩

/-- A running CRC that has read both its bytes, and whose step is a write to A. -/
theorem witness_StepKeepsTheFoldOfTheReads : ∃ s t : State, s.FoldsReads ∧ step s = .next t ∧ t.busy = true ∧
    crcLatched t = true ∧ t.commandReads = [(0x1000, 0x02), (0x1001, 0x07)] :=
  ⟨folded.withEvent (.hostWrite (params.base + 0x04) .word 0), _, folded_folds, rfl, by decide, by decide, by decide⟩

theorem witness_AllowedRunsAreSafe : ∃ s : State, s.Inv ∧ s.AllowedSchedule ∧ s.pending ≠ [] :=
  ⟨{ folded with pending := [.hostWrite (params.base + 0x3C) .word 1, .hostRead (params.base + 0x14) .word, .engine, .reset,
      .dataWrite 0x1000 0] },
    { folded_inv with running := fun _ => { folded_running with } }, by unfold State.AllowedSchedule; decide, by decide⟩

/-- Two idle blocks that differ in all the hidden state, and two that run a GCD and differ in `acc`. -/
theorem witness_HiddenStateIsNeverReadWhileIdle :
    (∃ s t : State, Agree s t ∧ s.latch ≠ t.latch ∧ s.acc ≠ t.acc ∧ s.k ≠ t.k) ∧
    ∃ s t : State, Agree s t ∧ s.busy = true ∧ s.acc ≠ t.acc :=
  ⟨⟨idle 1 2 3, { idle 1 2 3 with latch := { op := 9, bufp := true, a := 7, b := 7, len := 7 }, acc := 5, k := 6 },
      ⟨rfl, by intro h; cases h⟩, by decide, by decide, by decide⟩,
    running .gcd 8 12 0, { running .gcd 8 12 0 with acc := 5 },
      ⟨rfl, fun _ => ⟨rfl, rfl, by intro h; revert h; decide⟩⟩, rfl, by decide⟩

theorem witness_ParametersNeverChange : ∃ t : State, Host.Core.run Sys2Proof.core 2 (running .gcd 8 12 0) = .next t :=
  ⟨_, rfl⟩

/-- A write to an idle block and one to a busy block. -/
theorem witness_OnlyOtherAgentsWriteTheDataSpace : (∃ s t : State, s.mem.wf = true ∧ s.busy = false ∧ step s = .next t ∧
      t.mem.read 0x1000 ≠ s.mem.read 0x1000) ∧ ∃ s : State, s.mem.wf = true ∧ s.busy = true :=
  ⟨⟨(idle 0 0 0).withEvent (.dataWrite 0x1000 0x55), _, by decide, rfl, rfl, by decide⟩, folded, by decide, rfl⟩

theorem witness_OnlyCompletionWritesResult : (∃ s t : State, step s = .next t ∧ t.result ≠ s.result ∧ t.done = true) ∧
    ∃ s t : State, step s = .next t ∧ t.result ≠ s.result ∧ s.busy = false :=
  ⟨⟨folded, _, rfl, by decide, rfl⟩, ({ idle 0 0 0 with result := 5 } : State).withEvent .reset, _, rfl, by decide, rfl⟩

theorem witness_OnlyTheHostWritesOperands :
    (∃ s t : State, step s = .next t ∧ (∀ rest, s.pending ≠ .reset :: rest) ∧ t.a ≠ s.a) ∧
    (∃ s t : State, step s = .next t ∧ (∀ rest, s.pending ≠ .reset :: rest) ∧ t.b ≠ s.b) ∧
    ∃ s t : State, step s = .next t ∧ (∀ rest, s.pending ≠ .reset :: rest) ∧ t.len ≠ s.len :=
  ⟨⟨(idle 0 0 0).withEvent (.hostWrite (params.base + 0x04) .word 9), _, rfl, (by intro r h; injection h with h; cases h), by decide⟩,
    ⟨(idle 0 0 0).withEvent (.hostWrite (params.base + 0x08) .word 9), _, rfl, (by intro r h; injection h with h; cases h), by decide⟩,
    (idle 0 0 0).withEvent (.hostWrite (params.base + 0x0C) .word 9), _, rfl, (by intro r h; injection h with h; cases h), by decide⟩

/-- BUSY rising, DONE rising as BUSY falls, BUSY falling without DONE (a MEM_FAULT), and DONE falling by a write of an
illegal word. -/
theorem witness_BusyAndDoneFollowTheCommand :
    (∃ s t : State, step s = .next t ∧ s.busy = false ∧ t.busy = true) ∧
    (∃ s t : State, step s = .next t ∧ s.done = false ∧ t.done = true ∧ s.busy = true ∧ t.busy = false) ∧
    (∃ s t : State, step s = .next t ∧ EngineActs s ∧ AtUnreadableByte s ∧ s.busy = true ∧ t.busy = false ∧ t.done = false) ∧
    (∃ s t : State, step s = .next t ∧ s.done = true ∧ t.done = false ∧ s.busy = false ∧
      s.pending = [cmdEvent s.params 0x13]) ∧
    ∃ s t : State, step s = .next t ∧ s.done = true ∧ t.done = false ∧ s.pending = [.reset] :=
  ⟨⟨(idle 8 12 0).withEvent (cmdEvent params 0x03), _, rfl, rfl, rfl⟩, ⟨folded, _, rfl, rfl, rfl, rfl, rfl⟩,
    ⟨running (.crc16 true) 0 0x3000 4, _, rfl, .inl rfl, ⟨by decide, 0x3000, by decide⟩, rfl, rfl, rfl⟩,
    ⟨({ idle 8 12 0 with done := true } : State).withEvent (cmdEvent params 0x13), _, rfl, rfl, rfl, rfl, rfl⟩,
    ({ idle 8 12 0 with done := true } : State).withEvent .reset, _, rfl, rfl, rfl, rfl⟩

/-- A GCD, and a CRC16 that has read its bytes; after it, an illegal word, a word that is issued, and one whose buffer passes
the top. -/
theorem witness_WriteRacesWithCompletion :
    ((running .gcd 8 12 0).busy = true ∧ byteStepEnabled (running .gcd 8 12 0) = false ∧
      commandResult (running .gcd 8 12 0) = some 4) ∧
    (folded.busy = true ∧ byteStepEnabled folded = false ∧ commandResult folded = some 0x1241) ∧
    ((0x00 : Word) ∈ ([0x00, 0x04, 0x08, 0x0C] : List Word) ∧ (0x0C : Word) ∈ ([0x00, 0x04, 0x08, 0x0C] : List Word)) ∧
    decode 0x13 = .error (.bufpNotAllowed 3) ∧ decode 0x11 = .ok (.crc16 true) ∧
    ¬ PastTop (.crc16 true) (running .gcd 0 0x1000 2) ∧ PastTop (.crc16 true) (running .gcd 0 0xFFFFFFFF 2) :=
  ⟨by decide, by decide, by decide, by decide, by decide, not_past_top _ 0, (past_top 0).1⟩

theorem witness_BufferWriteRacesWithTheRead : ∃ (s : State) (addr : Word), s.mem.wf = true ∧ byteStepEnabled s = true ∧
    addr.toNat = s.latch.b.toNat + s.k.toNat ∧ isReadable s.params addr = true :=
  ⟨running (.crc16 true) 0xFFFF 0x1000 2, 0x1000, by decide⟩

/-- A `wait` that reads STATUS three times: twice too early, with and without an engine step before, and once after the end. With
no byte to read the early reads come before any engine step. -/
theorem witness_PseudoInstructionsReadTheResult :
    (idle 0 0 0).busy = false ∧ ([1, 0] : List Nat).sum ≤ (2 : Word).toNat ∧ (2 : Word).toNat < ([1, 0] : List Nat).sum + 2 ∧
    ([0, 0] : List Nat).sum ≤ 0 ∧ 0 < ([0, 0] : List Nat).sum + 1 ∧
    ((2 : Word) = 0 ∨ (0x1000 : Word).toNat + (2 : Word).toNat ≤ 2 ^ 32) ∧
    ∀ k < (2 : Word).toNat, isReadable params (BitVec.ofNat 32 ((0x1000 : Word).toNat + k)) = true := by decide

theorem witness_EqualContentsAreEqualData : ∃ (m m' : Memory) (a b : Word), m.wf = true ∧ m'.wf = true ∧
    (∀ addr, m.read addr = m'.read addr) ∧ a ≠ b ∧ m ≠ [] :=
  ⟨[(0x1000, 0x02)], [(0x1000, 0x02)], 0, 1, by decide, by decide, fun _ => rfl, by decide, by decide⟩

end Sys2Proof.Tests
end

/-! ## The configuration registers (10_state.md rules R29 to R31) -/

namespace Sys2Proof.Machine

theorem p16Bit_iff (p : Params) : p16Bit p = true ↔ p.poly16Sel = .x25 := by
  unfold p16Bit
  cases p.poly16Sel <;> decide

theorem p32Bit_iff (p : Params) : p32Bit p = true ↔ p.poly32Sel = .crc32cAlt := by
  unfold p32Bit
  cases p.poly32Sel <;> decide

theorem poly16_of_modbus {p : Params} (h : p.poly16Sel = .modbus) : poly16 p = 0xA001 := by rw [poly16, h]

theorem poly16_of_x25 {p : Params} (h : p.poly16Sel = .x25) : poly16 p = 0x8408 := by rw [poly16, h]

theorem poly32_of_ieee {p : Params} (h : p.poly32Sel = .ieee) : poly32 p = 0xEDB88320 := by rw [poly32, h]

theorem poly32_of_crc32cAlt {p : Params} (h : p.poly32Sel = .crc32cAlt) : poly32 p = 0xD8018001 := by rw [poly32, h]

/-- CONFIG.P16 stands in bit 0. -/
theorem configWord_bit0 (p : Params) : (configWord p).getLsbD 0 = p16Bit p := by
  unfold configWord
  cases p32Bit p <;> cases p16Bit p <;> decide

/-- CONFIG.P32 stands in bit 1. -/
theorem configWord_bit1 (p : Params) : (configWord p).getLsbD 1 = p32Bit p := by
  unfold configWord
  cases p32Bit p <;> cases p16Bit p <;> decide

/-- CONFIG has no bit above bit 1. -/
theorem configWord_lt (p : Params) : (configWord p).toNat < 4 := by
  unfold configWord
  cases p32Bit p <;> cases p16Bit p <;> decide

/-- An engine step keeps the parameters of the build and the platform. -/
theorem engineStep_params {s t : State} (h : engineStep s = .next t) : t.params = s.params := by
  rcases engineStep_cases h with ⟨-, rfl⟩ | ⟨-, addr, -, ⟨-, rfl⟩ | ⟨-, rfl⟩⟩ | ⟨-, -, r, -, rfl⟩ <;> rfl

/-- Every step, a reset among them, keeps the parameters of the build and the platform: apart from an engine step, each
effect that `step_changes` lists is an update of other fields. -/
theorem step_params {s t : State} (h : step s = .next t) : t.params = s.params := by
  rcases step_changes h with ⟨engine, -⟩ | ⟨-, effect⟩ | ⟨_, _, -, effect⟩ | ⟨-, _, effect⟩ | ⟨-, _, -, _, -, effect⟩ |
    ⟨-, _, -, _, _, effect⟩ | ⟨-, _, _, -, -, effect⟩ | ⟨-, _, -, effect⟩ | ⟨-, _, -, effect⟩ | ⟨-, _, -, effect⟩ |
    ⟨_, -, -, effect⟩
  case inl => exact (engineStep_params engine).trans rfl
  all_goals exact (congrArg State.params effect).trans rfl

/-- A host write to CONFIG, POLY16 or POLY32 does nothing, in either phase. -/
theorem step_write_configuration (s : State) (v : Word) {off : Word} (h : off ∈ ([0x1C, 0x20, 0x24] : List Word)) :
    step (s.withEvent (.hostWrite (s.params.base + off) .word v)) = .next s := by
  simp only [List.mem_cons, List.not_mem_nil, or_false] at h
  rcases h with rfl | rfl | rfl <;> exact step_hostWrite s v rfl (by decide)

/-- Settles O40: the values are those of the build's parameters, a write reaches an arm of `writeReg` that does nothing, and
the three registers are read from the parameters alone, which every step keeps. -/
theorem configurationRegistersAreConstant : Obligations.ConfigurationRegistersAreConstant := by
  unfold Obligations.ConfigurationRegistersAreConstant
  refine ⟨fun p => ⟨?_, ?_, configWord_lt p, fun h => ?_, fun h => ?_, poly32_of_ieee, poly32_of_crc32cAlt⟩,
    fun s v _ h => step_write_configuration s v h, fun s t h => ?_⟩
  · rw [configWord_bit0, p16Bit_iff]
  · rw [configWord_bit1, p32Bit_iff]
  · rw [poly16_of_modbus h]; rfl
  · rw [poly16_of_x25 h]; rfl
  · simp only [readReg, step_params h, and_self]

end Sys2Proof.Machine

/-! ## The range rule (20_memory.md rule R56) -/

namespace Sys2Proof.Machine

/-- BUFP = 1 is what singles out the two CRC commands over a buffer, since only these two carry the bit (R73). -/
theorem bufp_eq_true_iff (i : Instr) : i.bufp = true ↔ i = .crc16 true ∨ i = .crc32 true := by
  cases i <;> simp [Instr.bufp]

/-- R56's condition in the terms of the command word and the operand registers. -/
theorem pastTop_iff (i : Instr) (s : State) :
    PastTop i s ↔ i.bufp = true ∧ 0 < s.len.toNat ∧ 2 ^ 32 < s.b.toNat + s.len.toNat := by
  rw [PastTop, bufp_eq_true_iff]

/-- The three ways in which R56 does not apply: no buffer, an empty one, or one that ends at 2^32 or below. -/
theorem not_pastTop_iff (i : Instr) (s : State) :
    ¬ PastTop i s ↔ i.bufp = false ∨ s.len = 0 ∨ s.b.toNat + s.len.toNat ≤ 2 ^ 32 := by
  have empty : ¬ 0 < s.len.toNat ↔ s.len = 0 := by simp [← BitVec.toNat_inj]
  rw [pastTop_iff, not_and_or, not_and_or, Bool.not_eq_true, empty, Nat.not_lt]

/-- Settles O9: the two clauses are `PastTop` and its negation, and `exec_range` and `exec_issue` give the next state of
each. -/
theorem rangeRuleAppliesExactlyPastTheTop : Obligations.RangeRuleAppliesExactlyPastTheTop := by
  unfold Obligations.RangeRuleAppliesExactlyPastTheTop
  intro s i _ idle
  constructor
  · intro past
    exact exec_range idle ((pastTop_iff i s).2 past)
  · intro fits
    exact exec_issue idle ((not_pastTop_iff i s).2 fits)

end Sys2Proof.Machine

/-! ## The command words (30_encoding.md rules R70 to R77) -/

namespace Sys2Proof.Machine

/-- OP as a number (R70). -/
theorem fieldsOf_op_toNat (v : Word) : (fieldsOf v).op.toNat = v.toNat % 16 := by
  simp [fieldsOf, BitVec.extractLsb'_toNat]

/-- RES as a number (R70). -/
theorem fieldsOf_res_toNat (v : Word) : (fieldsOf v).res.toNat = v.toNat / 32 := by
  have small : v.toNat / 32 < 2 ^ 27 := by omega
  rw [fieldsOf, BitVec.extractLsb'_toNat, Nat.shiftRight_eq_div_pow, Nat.mod_eq_of_lt small]

/-- BUFP as a number (R70). -/
theorem fieldsOf_bufp_iff (v : Word) : (fieldsOf v).bufp = true ↔ v.toNat / 16 % 2 = 1 := by
  simp [fieldsOf, BitVec.getLsbD, Nat.testBit_eq_decide_div_mod_eq]

/-- The checks of R71 to R73 in the terms of the word's value. -/
theorem wf_fieldsOf_iff (v : Word) :
    (fieldsOf v).wf = true ↔ v.toNat / 32 = 0 ∧ (1 ≤ v.toNat % 16 ∧ v.toNat % 16 ≤ 6) ∧
      (v.toNat / 16 % 2 = 1 → v.toNat % 16 = 1 ∨ v.toNat % 16 = 2) := by
  have res : (fieldsOf v).resOk = true ↔ v.toNat / 32 = 0 := by
    rw [Fields.resOk, beq_iff_eq, ← BitVec.toNat_inj, fieldsOf_res_toNat]; rfl
  have op : (fieldsOf v).opOk = true ↔ 1 ≤ v.toNat % 16 ∧ v.toNat % 16 ≤ 6 := by
    rw [Fields.opOk, fieldsOf_op_toNat, Bool.and_eq_true, decide_eq_true_iff, decide_eq_true_iff]
  have bufp : (fieldsOf v).bufpOk = true ↔ (v.toNat / 16 % 2 = 1 → v.toNat % 16 = 1 ∨ v.toNat % 16 = 2) := by
    simp only [Fields.bufpOk, Bool.or_eq_true, Bool.not_eq_true', ← Bool.not_eq_true, fieldsOf_bufp_iff, beq_iff_eq,
      ← BitVec.toNat_inj, fieldsOf_op_toNat, or_assoc, imp_iff_not_or]
    rfl
  rw [Fields.wf, Bool.and_eq_true, Bool.and_eq_true, res, op, bufp, and_assoc]

/-- A command's word decodes to the command. -/
theorem decode_encode (i : Instr) : decode (encode i) = .ok i := by
  rw [encode, decode_word]
  cases i <;> rfl

/-- A word that decodes is the word of the command it decodes to. -/
theorem eq_encode_of_decode {v : Word} {i : Instr} (h : decode v = .ok i) : v = encode i := by
  rw [encode, ← decodeFields_ok h, word_fieldsOf]

/-- Every command's word is one of the eight of R74. -/
theorem encode_mem_legalWords (i : Instr) : encode i ∈ legalWords := by
  cases i
  case crc16 bufp | crc32 bufp => cases bufp <;> decide
  all_goals decide

/-- The decoder rejects every word that R74 does not list. -/
theorem decode_error_of_not_legal {v : Word} (h : v ∉ legalWords) : ∃ why, decode v = .error why := by
  cases hd : decode v with
  | error why => exact ⟨why, rfl⟩
  | ok i => exact absurd (eq_encode_of_decode hd ▸ encode_mem_legalWords i) h

/-- R74's list is what passes the checks of R71 to R73. -/
theorem mem_legalWords_iff_wf (v : Word) : v ∈ legalWords ↔ (fieldsOf v).wf = true := by
  constructor
  · have allPass : legalWords.all (fun w => (fieldsOf w).wf) = true := by decide
    exact List.all_eq_true.1 allPass v
  · intro wf
    by_contra illegal
    obtain ⟨why, rejected⟩ := decode_error_of_not_legal illegal
    rw [← decodeFields_isOk, ← decode, rejected] at wf
    cases wf

/-- The decoder looks at RES first. -/
theorem decodeFields_of_res_ne_zero {f : Fields} (h : f.res ≠ 0) : decodeFields f = .error .reservedBits := if_pos h

/-- A write to CMD, while BUSY = 0, of a word that the decoder rejects (R152). -/
theorem writeCmd_illegal {v : Word} {s : State} {why : Illegal} (idle : s.busy = false) (h : decode v = .error why) :
    writeCmd v s = .next ({ s with done := false }.withError .illegalOp v) := by
  rcases writeCmd_cases (v := v) (s := s) rfl with ⟨busy, -⟩ | ⟨-, -, rejected⟩ | ⟨-, i, accepted, -⟩
  · rw [idle] at busy; cases busy
  · exact rejected
  · rw [h] at accepted; cases accepted

/-- Settles O2: each listed word is the encoding of its operation, and a word that decodes is an encoding, so it is listed. -/
theorem decodeFollowsTheTable : Obligations.DecodeFollowsTheTable := by
  unfold Obligations.DecodeFollowsTheTable
  exact ⟨decode_encode (.crc16 false), decode_encode (.crc16 true), decode_encode (.crc32 false),
    decode_encode (.crc32 true), decode_encode .gcd, decode_encode .grayenc, decode_encode .graydec, decode_encode .isqrt,
    fun _ => decode_error_of_not_legal⟩

/-- Settles O3: the illegal space is the complement of the fields' checks, and the decoder rejects a word of it. -/
theorem illegalSpaceIsNeverIssued : Obligations.IllegalSpaceIsNeverIssued := by
  unfold Obligations.IllegalSpaceIsNeverIssued
  constructor
  · intro v
    rw [mem_legalWords_iff_wf, wf_fieldsOf_iff]
    omega
  · intro s v illegal idle
    obtain ⟨why, rejected⟩ := decode_error_of_not_legal illegal
    rw [step_cmd, writeCmd_illegal idle rejected]

/-- Settles O4: RES holds the word's value divided by 32, which is not 0 from 32 on. -/
theorem reservedBitsAreIllegal : Obligations.ReservedBitsAreIllegal := by
  unfold Obligations.ReservedBitsAreIllegal
  intro v large
  apply decodeFields_of_res_ne_zero
  intro zero
  have value : v.toNat / 32 = 0 := by rw [← fieldsOf_res_toNat, zero]; rfl
  omega

end Sys2Proof.Machine

/-! ## The residue law (40_crc.md rule R106) -/

namespace Sys2Proof.Machine

/-- The generator step keeps 0, whatever the polynomial. -/
@[simp] theorem gstep_zero {w : Nat} (poly : BitVec w) : gstep poly 0#w = 0#w := by simp [gstep]

@[simp] theorem gsteps_zero {w : Nat} (poly : BitVec w) (n : Nat) : gsteps poly n 0#w = 0#w := by
  induction n with
  | zero => rfl
  | succ n ih => rw [gsteps, gstep_zero, ih]

/-- Entry 0 of every table is 0 (R101). -/
@[simp] theorem tableEntry_zero {w : Nat} (poly : BitVec w) : tableEntry poly 0#8 = 0#w := by
  rw [tableEntry, BitVec.setWidth_zero, gsteps_zero]

/-- A value xored with its own low byte has the low byte 0: the table index that R102 forms is 0. -/
theorem lowByte_xor_lowByte {w : Nat} (acc : BitVec w) (hw : 8 ≤ w) :
    (acc ^^^ (acc.setWidth 8).setWidth w).setWidth 8 = 0#8 := by
  rw [BitVec.setWidth_xor, BitVec.setWidth_setWidth_of_le _ hw, BitVec.setWidth_eq, BitVec.xor_self]

/-- Folding the accumulator's own low byte shifts that byte out and mixes nothing in. -/
theorem fold16_lowByte (p : Params) (acc : Half) : fold16 p acc (acc.setWidth 8) = acc >>> 8 := by
  rw [fold16, lowByte_xor_lowByte acc (by decide), t16, tableEntry_zero, BitVec.xor_zero]

/-- `fold16_lowByte` at 32 bits. -/
theorem fold32_lowByte (p : Params) (acc : Word) : fold32 p acc (acc.setWidth 8) = acc >>> 8 := by
  rw [fold32, lowByte_xor_lowByte acc (by decide), t32, tableEntry_zero, BitVec.xor_zero]

/-- Folding both bytes of the accumulator, low byte first, shifts it out. -/
theorem crcSeq16_ownBytes (p : Params) (r : Half) :
    crcSeq16 p r [r.setWidth 8, (r >>> 8).setWidth 8] = 0 := by
  calc crcSeq16 p r [r.setWidth 8, (r >>> 8).setWidth 8]
      = r >>> 16 := by
        simp only [crcSeq16, List.foldl_cons, List.foldl_nil, fold16_lowByte, ← BitVec.shiftRight_add]
    _ = 0 := BitVec.ushiftRight_eq_zero (le_refl 16)

/-- Folding the four bytes of the accumulator, low byte first, shifts it out. -/
theorem crcSeq32_ownBytes (p : Params) (r : Word) :
    crcSeq32 p r [r.setWidth 8, (r >>> 8).setWidth 8, (r >>> 16).setWidth 8, (r >>> 24).setWidth 8] = 0 := by
  calc crcSeq32 p r [r.setWidth 8, (r >>> 8).setWidth 8, (r >>> 16).setWidth 8, (r >>> 24).setWidth 8]
      = r >>> 32 := by
        simp only [crcSeq32, List.foldl_cons, List.foldl_nil, fold32_lowByte, ← BitVec.shiftRight_add]
    _ = 0 := BitVec.ushiftRight_eq_zero (le_refl 32)

/-- Settles O26: after the message the fold goes on from its own accumulator, whose bytes shift it out. -/
theorem crcResidueIsZero : Obligations.CrcResidueIsZero := by
  unfold Obligations.CrcResidueIsZero
  constructor
  · intro p a m
    rw [crcSeq16, List.foldl_append]
    exact crcSeq16_ownBytes p (crcSeq16 p a m)
  · intro p a m
    rw [crcSeq32, List.foldl_append]
    exact crcSeq32_ownBytes p (crcSeq32 p a m)

end Sys2Proof.Machine

/-! ## A command left to the engine (40_crc.md rule R107, 60_exceptions.md rules R160 to R164) -/

namespace Sys2Proof.Machine

/-- While BUSY = 0, a write of a command's word to CMD is that command's write. -/
theorem writeCmd_encode (i : Instr) {s : State} (idle : s.busy = false) : writeCmd (encode i) s = exec i s := by
  rw [writeCmd, if_neg (by simp [idle]), decode_encode]

/-- With no event to come the engine acts (R164). -/
theorem step_of_pending_nil {s : State} (h : s.pending = []) : step s = engineStep s := by
  rw [step, h]

/-- A command that is not turned away is issued by the write of its word to an idle block. -/
theorem step_cmd_issue {i : Instr} {s : State} (idle : s.busy = false) (fits : ¬ PastTop i s) :
    step (s.withEvent (cmdEvent s.params (encode i))) = .next (issued i s) := by
  rw [step_cmd, writeCmd_encode i idle, exec_issue idle fits]

/-- Just after issue a command without a buffer, or with an empty one, has no byte to read (R161). -/
theorem byteStepEnabled_issued_of_no_bytes {i : Instr} {s : State} (empty : i.bufp = false ∨ s.len = 0) :
    byteStepEnabled (issued i s) = false := by
  rw [← Bool.not_eq_true, byteStepEnabled_iff]
  rintro ⟨-, -, buffer, below⟩
  rcases empty with absent | zero
  · exact Bool.false_ne_true (absent.symm.trans buffer)
  · rw [show (issued i s).latch.len = 0 from zero] at below
    exact absurd below (Nat.not_lt_zero _)

theorem lowHalf_of_lt {v : Word} (h : v.toNat < 2 ^ 16) : lowHalf v = v := by
  rw [lowHalf_eq, Nat.mod_eq_of_lt h, BitVec.ofNat_toNat, BitVec.setWidth_eq]

/-- Before any byte is read the result of a CRC is the accumulator it was issued with (R160, R162). -/
theorem commandResult_issued_of_crc {i : Instr} (s : State) (crc : i.op = 1 ∨ i.op = 2) :
    commandResult (issued i s) = some (issuedAcc i s) := by
  cases i with
  | crc16 bufp =>
    have small : (issuedAcc (.crc16 bufp) s).toNat < 2 ^ 16 := by
      rw [issuedAcc, ← lowHalf_eq]
      exact lowHalf_lt s.a
    exact congrArg some (lowHalf_of_lt small)
  | crc32 bufp => rfl
  | gcd | grayenc | graydec | isqrt => exact absurd crc (by decide)

/-- The accumulator that R107 states for each width is the one that issue sets (R160). -/
theorem issuedAcc_of_crc (i : Instr) (s : State) :
    (i.op = 1 → issuedAcc i s = BitVec.ofNat 32 (s.a.toNat % 2 ^ 16)) ∧ (i.op = 2 → issuedAcc i s = s.a) := by
  cases i <;> simp [Instr.op, issuedAcc]

/-- Settles O23: the command is issued, and with no byte to read the engine's next step completes it with the accumulator
it was issued with. -/
theorem crcWithoutBytesReturnsItsAccumulator : Obligations.CrcWithoutBytesReturnsItsAccumulator := by
  unfold Obligations.CrcWithoutBytesReturnsItsAccumulator
  intro s idle alone i crc empty
  have fits : ¬ PastTop i s := (not_pastTop_iff i s).2 (empty.imp_right .inl)
  have completes : step (issued i s) = .next (completed (issuedAcc i s) (issued i s)) := by
    rw [step_of_pending_nil (s := issued i s) alone]
    exact engineStep_completion rfl (byteStepEnabled_issued_of_no_bytes empty) (commandResult_issued_of_crc s crc)
  exact ⟨_, run_next (step_cmd_issue idle fits) (run_next completes rfl), rfl, rfl, rfl, issuedAcc_of_crc i s⟩

end Sys2Proof.Machine

/-! ## Trailing zeros and the odd part (00_scope.md rule R13) -/

namespace Sys2Proof.Machine

/-- A non-zero value that fits in the bits searched is a power of two, by its trailing zeros, times an odd number. -/
theorem exists_odd_two_pow_trailingZeros_mul {w : Nat} (n : Nat) : ∀ {v : BitVec w}, v.toNat ≠ 0 → v.toNat < 2 ^ n →
    ∃ m, m % 2 = 1 ∧ v.toNat = 2 ^ trailingZeros n v * m := by
  induction n with
  | zero => intro v nonzero fits; omega
  | succ n ih =>
    intro v nonzero fits
    have bit0 : v.getLsbD 0 = decide (v.toNat % 2 = 1) := Nat.testBit_zero v.toNat
    have half : (v >>> 1).toNat = v.toNat / 2 := BitVec.toNat_ushiftRight v 1
    rw [trailingZeros, bit0]
    by_cases odd : v.toNat % 2 = 1
    · exact ⟨v.toNat, odd, by simp [odd]⟩
    · obtain ⟨m, mOdd, halfEq⟩ := ih (v := v >>> 1) (by omega) (by omega)
      refine ⟨m, mOdd, ?_⟩
      calc v.toNat = 2 * (v >>> 1).toNat := by omega
        _ = 2 ^ (trailingZeros n (v >>> 1) + 1) * m := by rw [halfEq, ← mul_assoc, ← pow_succ']
        _ = _ := by simp [odd]

/-- A non-zero word is `2 ^ ctz32` times its stripped value, which is odd. -/
theorem two_pow_ctz32_mul_strip {v : Word} (nonzero : v ≠ 0) :
    v.toNat = 2 ^ ctz32 v * (strip v).toNat ∧ (strip v).toNat % 2 = 1 := by
  obtain ⟨m, mOdd, eq⟩ := exists_odd_two_pow_trailingZeros_mul 32 (BitVec.toNat_ne_iff_ne.2 nonzero) v.isLt
  have stripped : (strip v).toNat = m := by
    rw [strip, BitVec.toNat_ushiftRight, Nat.shiftRight_eq_div_pow, ctz32]
    exact Nat.div_eq_of_eq_mul_right (Nat.two_pow_pos _) eq
  rw [stripped]
  exact ⟨eq, mOdd⟩

/-- A power of two drops out of a greatest common divisor with an odd number, as the two have no common factor. -/
theorem gcd_two_pow_mul_of_odd {m : Nat} (k n : Nat) (odd : m % 2 = 1) : Nat.gcd m (2 ^ k * n) = Nat.gcd m n :=
  Nat.Coprime.gcd_mul_left_cancel_right n ((Nat.coprime_two_left.2 (Nat.odd_iff.2 odd)).pow_left k)

/-- Against an odd number, a non-zero word and its stripped value have the same greatest common divisor. -/
theorem gcd_strip_of_odd {m : Nat} {v : Word} (odd : m % 2 = 1) (nonzero : v ≠ 0) :
    Nat.gcd m (strip v).toNat = Nat.gcd m v.toNat := by
  conv_rhs => rw [(two_pow_ctz32_mul_strip nonzero).1, gcd_two_pow_mul_of_odd _ _ odd]

/-- Stripping an even word at least halves it. -/
theorem two_mul_strip_le_of_even {v : Word} (nonzero : v ≠ 0) (even : v.toNat % 2 = 0) :
    2 * (strip v).toNat ≤ v.toNat := by
  obtain ⟨eq, odd⟩ := two_pow_ctz32_mul_strip nonzero
  cases zeros : ctz32 v with
  | zero => rw [zeros, pow_zero, one_mul] at eq; omega
  | succ k =>
    rw [zeros] at eq
    calc 2 * (strip v).toNat ≤ 2 ^ (k + 1) * (strip v).toNat :=
          Nat.mul_le_mul_right _ (Nat.le_self_pow (Nat.succ_ne_zero k) 2)
      _ = v.toNat := eq.symm

/-! ## The binary GCD is the greatest common divisor (41_gcd.md rule R110) -/

/-- `n` passes of the loop are enough to compute the greatest common divisor where the first value is odd and the product
of the odd parts is below `2 ^ n`. -/
def LoopComputesGcd (n : Nat) : Prop :=
  ∀ u v : Word, u.toNat % 2 = 1 → v ≠ 0 → u.toNat * (strip v).toNat < 2 ^ n →
    (gcdLoop n u v).toNat = Nat.gcd u.toNat v.toNat

/-- The rest of a pass, once both values are odd and in order, given what the remaining passes compute: the subtraction
keeps the greatest common divisor, and as it leaves an even value, the product of the odd parts at least halves. -/
theorem gcdLoop_rest {n : Nat} {lo hi : Word} (loOdd : lo.toNat % 2 = 1) (hiOdd : hi.toNat % 2 = 1)
    (le : lo.toNat ≤ hi.toNat) (bound : lo.toNat * hi.toNat < 2 ^ (n + 1))
    (ih : LoopComputesGcd n) :
    (if hi - lo = 0 then lo else gcdLoop n lo (hi - lo)).toNat = Nat.gcd lo.toNat hi.toNat := by
  have diff : (hi - lo).toNat = hi.toNat - lo.toNat := BitVec.toNat_sub_of_le le
  have keeps : Nat.gcd lo.toNat (hi - lo).toNat = Nat.gcd lo.toNat hi.toNat := by
    rw [diff, Nat.gcd_sub_self_right le]
  split
  · rename_i equal
    rw [← keeps, equal]
    exact (Nat.gcd_zero_right _).symm
  · rename_i nonzero
    have halves := two_mul_strip_le_of_even nonzero (by omega)
    have product : lo.toNat * (2 * (strip (hi - lo)).toNat) ≤ lo.toNat * hi.toNat :=
      Nat.mul_le_mul_left _ (by omega)
    rw [ih _ _ loOdd nonzero (by rw [Nat.mul_left_comm] at product; omega), keeps]

/-- Every number of passes computes the greatest common divisor within its bound. -/
theorem loopComputesGcd (n : Nat) : LoopComputesGcd n := by
  induction n with
  | zero =>
    intro u v uOdd nonzero bound
    have stripOdd := (two_pow_ctz32_mul_strip nonzero).2
    have positive : 0 < u.toNat * (strip v).toNat := Nat.mul_pos (by omega) (by omega)
    omega
  | succ n ih =>
    intro u v uOdd nonzero bound
    have stripOdd := (two_pow_ctz32_mul_strip nonzero).2
    rw [gcdLoop, ← gcd_strip_of_odd uOdd nonzero]
    by_cases swap : strip v < u
    · simp only [swap, if_true]
      rw [Nat.mul_comm] at bound
      rw [gcdLoop_rest stripOdd uOdd (Nat.le_of_lt swap) bound ih, Nat.gcd_comm]
    · simp only [swap, if_false]
      exact gcdLoop_rest uOdd stripOdd (Nat.not_lt.1 swap) bound ih

/-- The common power of two: the trailing zeros of `u ||| v` are those that both words have, and one of the two has no
more, so what is left of the greatest common divisor is odd. -/
theorem gcd_eq_two_pow_ctz32_or_mul_odd {u v : Word} (nonzero : u ||| v ≠ 0) :
    ∃ g, g % 2 = 1 ∧ Nat.gcd u.toNat v.toNat = 2 ^ ctz32 (u ||| v) * g := by
  obtain ⟨eq, odd⟩ := two_pow_ctz32_mul_strip nonzero
  rw [strip] at odd eq
  generalize ctz32 (u ||| v) = w at odd eq
  simp only [BitVec.toNat_ushiftRight, BitVec.toNat_or, Nat.shiftRight_or_distrib, Nat.or_mod_two_eq_one] at odd eq
  have low : (u.toNat % 2 ^ w) ||| (v.toNat % 2 ^ w) = 0 := by
    rw [← Nat.or_mod_two_pow, eq, Nat.mul_mod_right]
  obtain ⟨uLow, vLow⟩ := Nat.or_eq_zero_iff.1 low
  have uEq : u.toNat = 2 ^ w * (u.toNat >>> w) := by
    rw [Nat.shiftRight_eq_div_pow, Nat.mul_div_cancel' (Nat.dvd_of_mod_eq_zero uLow)]
  have vEq : v.toNat = 2 ^ w * (v.toNat >>> w) := by
    rw [Nat.shiftRight_eq_div_pow, Nat.mul_div_cancel' (Nat.dvd_of_mod_eq_zero vLow)]
  refine ⟨Nat.gcd (u.toNat >>> w) (v.toNat >>> w), ?_, ?_⟩
  · by_contra gcdEven
    have two : 2 ∣ Nat.gcd (u.toNat >>> w) (v.toNat >>> w) := Nat.dvd_of_mod_eq_zero (by omega)
    have uEven := two.trans (Nat.gcd_dvd_left _ _)
    have vEven := two.trans (Nat.gcd_dvd_right _ _)
    omega
  · conv_lhs => rw [uEq, vEq, Nat.gcd_mul_left]

/-- The greatest common divisor is its power of two times that of the stripped first word and the second (R110). -/
theorem two_pow_ctz32_or_mul_gcd_strip {u v : Word} (uNonzero : u ≠ 0) :
    2 ^ ctz32 (u ||| v) * Nat.gcd (strip u).toNat v.toNat = Nat.gcd u.toNat v.toNat := by
  obtain ⟨uEq, stripOdd⟩ := two_pow_ctz32_mul_strip uNonzero
  have orNonzero : u ||| v ≠ 0 := fun zero => uNonzero (BitVec.or_eq_zero_iff.1 zero).1
  obtain ⟨g, gOdd, gcdEq⟩ := gcd_eq_two_pow_ctz32_or_mul_odd orNonzero
  have stripDvd : (strip u).toNat ∣ u.toNat := uEq ▸ Nat.dvd_mul_left _ _
  have gDvd : g ∣ u.toNat := (gcdEq ▸ Nat.dvd_mul_left g _).trans (Nat.gcd_dvd_left u.toNat v.toNat)
  have oddPart : Nat.gcd (strip u).toNat v.toNat = g := by
    calc Nat.gcd (strip u).toNat v.toNat
        = Nat.gcd (strip u).toNat (Nat.gcd u.toNat v.toNat) := by
          rw [← Nat.gcd_assoc, Nat.gcd_eq_left stripDvd]
      _ = Nat.gcd g (strip u).toNat := by rw [gcdEq, gcd_two_pow_mul_of_odd _ _ stripOdd, Nat.gcd_comm]
      _ = Nat.gcd g u.toNat := gcd_strip_of_odd gOdd uNonzero
      _ = g := Nat.gcd_eq_left gDvd
  rw [oddPart, gcdEq]

/-- `gcd32` is the greatest common divisor (R110). -/
theorem gcd32_toNat (u v : Word) : (gcd32 u v).toNat = Nat.gcd u.toNat v.toNat := by
  by_cases uZero : u = 0
  · simp [gcd32, uZero]
  by_cases vZero : v = 0
  · simp [gcd32, vZero]
  have stripOdd := (two_pow_ctz32_mul_strip uZero).2
  have passes : (strip u).toNat * (strip v).toNat < 2 ^ 66 :=
    calc (strip u).toNat * (strip v).toNat < 2 ^ 32 * 2 ^ 32 := Nat.mul_lt_mul'' (strip u).isLt (strip v).isLt
      _ < 2 ^ 66 := by decide
  have fits : Nat.gcd u.toNat v.toNat < 2 ^ 32 :=
    (Nat.gcd_le_left _ (Nat.pos_of_ne_zero (BitVec.toNat_ne_iff_ne.2 uZero))).trans_lt u.isLt
  rw [gcd32, if_neg (not_or.2 ⟨uZero, vZero⟩), BitVec.toNat_shiftLeft, loopComputesGcd 66 _ _ stripOdd vZero passes,
    Nat.shiftLeft_eq, Nat.mul_comm, two_pow_ctz32_or_mul_gcd_strip uZero, Nat.mod_eq_of_lt fits]

/-- A value of `gcd32` is a value of `Nat.gcd`: the form in which the corner cases and laws carry over. -/
theorem gcd32_eq_iff {u v r : Word} : gcd32 u v = r ↔ Nat.gcd u.toNat v.toNat = r.toNat := by
  rw [← BitVec.toNat_inj, gcd32_toNat]

/-! ## The laws and the command (41_gcd.md rules R111 and R112) -/

theorem gcd32_comm (u v : Word) : gcd32 u v = gcd32 v u := by
  rw [gcd32_eq_iff, gcd32_toNat, Nat.gcd_comm]

theorem gcd32_eq_zero_iff (u v : Word) : gcd32 u v = 0 ↔ u = 0 ∧ v = 0 := by
  rw [gcd32_eq_iff, ← BitVec.toNat_inj, ← BitVec.toNat_inj]
  exact Nat.gcd_eq_zero_iff

theorem gcd32_le_max (u v : Word) : (gcd32 u v).toNat ≤ max u.toNat v.toNat := by
  rw [gcd32_toNat]
  rcases Nat.eq_zero_or_pos u.toNat with zero | positive
  · rw [zero, Nat.gcd_zero_left]
    exact Nat.le_max_right _ _
  · exact (Nat.gcd_le_left _ positive).trans (Nat.le_max_left _ _)

theorem gcd32_zero_left (v : Word) : gcd32 0 v = v := gcd32_eq_iff.2 (Nat.gcd_zero_left _)

theorem gcd32_zero_right (u : Word) : gcd32 u 0 = u := gcd32_eq_iff.2 (Nat.gcd_zero_right _)

theorem gcd32_self (u : Word) : gcd32 u u = u := gcd32_eq_iff.2 (Nat.gcd_self _)

theorem gcd32_one_left (v : Word) : gcd32 1 v = 1 := gcd32_eq_iff.2 (Nat.gcd_one_left _)

/-- Settles O30: each law is that of `Nat.gcd`, which `gcd32` computes. -/
theorem gcdLaws : Obligations.GcdLaws := by
  unfold Obligations.GcdLaws
  intro a b
  refine ⟨gcd32_comm a b, fun _ => ?_, gcd32_le_max a b, gcd32_eq_zero_iff a b⟩
  rw [gcd32_toNat]
  exact ⟨Nat.gcd_dvd_left _ _, Nat.gcd_dvd_right _ _⟩

/-- A word decodes to a command exactly when it is the command's word. -/
theorem decode_eq_ok_iff (v : Word) (i : Instr) : decode v = .ok i ↔ v = encode i :=
  ⟨eq_encode_of_decode, fun eq => eq ▸ decode_encode i⟩

/-- Just after the issue of a command without a buffer the engine's next step is the completion step. -/
theorem engineStep_issued_of_bufp_false {i : Instr} {s : State} {r : Word} (absent : i.bufp = false)
    (result : commandResult (issued i s) = some r) : engineStep (issued i s) = .next (completed r (issued i s)) :=
  engineStep_completion rfl (byteStepEnabled_issued_of_no_bytes (.inl absent)) result

/-- Settles O17: the command has no buffer, so it is issued from every idle state and the engine's next step completes it;
the corner cases are values of the greatest common divisor. -/
theorem gcdCommandFollowsTheRule : Obligations.GcdCommandFollowsTheRule := by
  unfold Obligations.GcdCommandFollowsTheRule
  refine ⟨fun v => decode_eq_ok_iff v .gcd, decode_error_of_not_legal (by decide), fun s idle => ⟨?_, ?_⟩,
    fun _ busy => exec_busy .gcd busy, gcd32_zero_left 0, gcd32_zero_left, gcd32_zero_right, gcd32_self _, gcd32_self _,
    gcd32_self, fun v _ => gcd32_one_left v, gcd32_eq_iff.2 (by decide)⟩
  · exact exec_issue idle ((not_pastTop_iff .gcd s).2 (.inl rfl))
  · exact ⟨_, engineStep_issued_of_bufp_false rfl rfl, rfl⟩

end Sys2Proof.Machine

/-! ## The Gray code (42_gray.md) -/

namespace Sys2Proof.Machine

/-! ### One step of the decoder's cascade, of which the encoder is the step by 1 -/

theorem grayEncode_eq_xorShift_one (u : Word) : grayEncode u = xorShift 1 u := rfl

/-- Bit `i` after a step by `n` is the XOR of bits `i` and `n + i`; above the top the shift brings in zeros. -/
theorem getLsbD_xorShift (n : Nat) (u : Word) (i : Nat) :
    (xorShift n u).getLsbD i = Bool.xor (u.getLsbD i) (u.getLsbD (n + i)) := by
  rw [xorShift, BitVec.getLsbD_xor, BitVec.getLsbD_ushiftRight]

theorem xorShift_xor (n : Nat) (u v : Word) : xorShift n (u ^^^ v) = xorShift n u ^^^ xorShift n v := by
  simp only [xorShift, BitVec.ushiftRight_xor_distrib]
  ac_rfl

theorem xorShift_xorShift (m n : Nat) (u : Word) :
    xorShift m (xorShift n u) = u ^^^ u >>> n ^^^ u >>> m ^^^ u >>> (n + m) := by
  simp only [xorShift, BitVec.ushiftRight_xor_distrib, ← BitVec.shiftRight_add, ← BitVec.xor_assoc]

theorem xorShift_comm (m n : Nat) (u : Word) : xorShift m (xorShift n u) = xorShift n (xorShift m u) := by
  rw [xorShift_xorShift, xorShift_xorShift, BitVec.xor_assoc u, BitVec.xor_comm (u >>> n), ← BitVec.xor_assoc u,
    Nat.add_comm]

/-- The same step twice is the step of twice the distance, since the two middle terms cancel. -/
theorem xorShift_xorShift_self (n : Nat) (u : Word) : xorShift n (xorShift n u) = xorShift (n + n) u := by
  rw [xorShift_xorShift, BitVec.xor_assoc u, BitVec.xor_self, BitVec.xor_zero, xorShift]

theorem xorShift_thirtyTwo (u : Word) : xorShift 32 u = u := by
  rw [xorShift, BitVec.ushiftRight_eq_zero (Nat.le_refl 32), BitVec.xor_zero]

/-! ### The inverse law (42_gray.md rule R123) -/

/-- The encoder's step by 1 meets the cascade 1, 2, 4, 8, 16 and doubles at each, until its distance is the word's width. -/
theorem grayDecode_grayEncode (u : Word) : grayDecode (grayEncode u) = u := by
  rw [grayDecode, grayEncode_eq_xorShift_one, xorShift_xorShift_self 1, xorShift_xorShift_self 2, xorShift_xorShift_self 4,
    xorShift_xorShift_self 8, xorShift_xorShift_self 16, xorShift_thirtyTwo]

/-- The encoder's step commutes with each of the decoder's. -/
theorem grayEncode_grayDecode (u : Word) : grayEncode (grayDecode u) = u := by
  calc grayEncode (grayDecode u)
      = grayDecode (grayEncode u) := by
        simp only [grayDecode, grayEncode_eq_xorShift_one, xorShift_comm 1]
    _ = u := grayDecode_grayEncode u

/-- Settles O31: each function is a two-sided inverse of the other. -/
theorem grayCodesAreInverse : Obligations.GrayCodesAreInverse := by
  unfold Obligations.GrayCodesAreInverse
  refine ⟨grayDecode_grayEncode, grayEncode_grayDecode, ?_, ?_⟩
  · exact Function.bijective_iff_has_inverse.2 ⟨grayDecode, grayDecode_grayEncode, grayEncode_grayDecode⟩
  · exact Function.bijective_iff_has_inverse.2 ⟨grayEncode, grayEncode_grayDecode, grayDecode_grayEncode⟩

/-! ### The adjacency law (42_gray.md rule R124) -/

/-- A positive number and its predecessor differ in a run of low bits: the trailing zeros and the 1 above them. -/
theorem exists_xor_pred_eq_two_pow_sub_one (n : Nat) (positive : 0 < n) : ∃ i, n ^^^ (n - 1) = 2 ^ (i + 1) - 1 := by
  induction n using Nat.strong_induction_on with
  | _ n ih =>
    have half := Nat.xor_div_two (a := n) (b := n - 1)
    have low : (n ^^^ (n - 1)) % 2 = 1 := Nat.xor_mod_two_eq_one.2 (by omega)
    rcases Nat.mod_two_eq_zero_or_one n with even | odd
    · obtain ⟨i, eq⟩ := ih (n / 2) (by omega) (by omega)
      have runPositive := Nat.two_pow_pos (i + 1)
      rw [show (n - 1) / 2 = n / 2 - 1 by omega, eq] at half
      exact ⟨i + 1, by omega⟩
    · rw [show (n - 1) / 2 = n / 2 by omega, Nat.xor_self] at half
      exact ⟨0, by omega⟩

/-- The same of words; 0 and its predecessor 0xFFFFFFFF differ in all 32 bits. -/
theorem exists_xor_sub_one_toNat_eq (u : Word) : ∃ i < 32, (u ^^^ (u - 1)).toNat = 2 ^ (i + 1) - 1 := by
  by_cases zero : u = 0
  · exact ⟨31, by decide, by rw [zero]; decide⟩
  have positive : 0 < u.toNat := Nat.pos_of_ne_zero (BitVec.toNat_ne_iff_ne.2 zero)
  have pred : (u - 1).toNat = u.toNat - 1 := BitVec.toNat_sub_of_le positive
  obtain ⟨i, eq⟩ := exists_xor_pred_eq_two_pow_sub_one u.toNat positive
  have value : (u ^^^ (u - 1)).toNat = 2 ^ (i + 1) - 1 := by rw [BitVec.toNat_xor, pred, eq]
  have fits : 2 ^ (i + 1) ≤ 2 ^ 32 := by have bounded := (u ^^^ (u - 1)).isLt; omega
  exact ⟨i, (Nat.pow_le_pow_iff_right (by decide)).1 fits, value⟩

/-- The encoder maps a run of low bits to its top bit alone. -/
theorem grayEncode_eq_twoPow {v : Word} {i : Nat} (run : v.toNat = 2 ^ (i + 1) - 1) :
    grayEncode v = BitVec.twoPow 32 i := by
  have bit (j : Nat) : v.getLsbD j = decide (j < i + 1) := by rw [BitVec.getLsbD, run, Nat.testBit_two_pow_sub_one]
  refine BitVec.eq_of_getLsbD_eq fun j inside => ?_
  rw [grayEncode_eq_xorShift_one, getLsbD_xorShift, bit, bit, BitVec.getLsbD_twoPow]
  rcases Nat.lt_trichotomy j i with below | rfl | above
  · simp [show j < i + 1 by omega, show 1 + j < i + 1 by omega, show i ≠ j by omega]
  · simp [Nat.add_comm, inside]
  · simp [show ¬ j < i + 1 by omega, show ¬ 1 + j < i + 1 by omega, show i ≠ j by omega]

/-- Settles O33: the encoder is linear, so the encodings differ by the encoding of the difference, which is a run of low
bits. -/
theorem grayNeighboursDifferInOneBit : Obligations.GrayNeighboursDifferInOneBit := by
  unfold Obligations.GrayNeighboursDifferInOneBit
  refine ⟨fun u => ?_, by decide⟩
  obtain ⟨i, inside, run⟩ := exists_xor_sub_one_toNat_eq u
  have linear : grayEncode u ^^^ grayEncode (u - 1) = grayEncode (u ^^^ (u - 1)) := (xorShift_xor 1 u (u - 1)).symm
  exact ⟨i, inside, linear.trans (grayEncode_eq_twoPow run)⟩

/-! ### The commands (42_gray.md rules R121 and R122) -/

/-- A command without a buffer is issued from every idle state, and the engine's next step completes it. -/
theorem exec_issue_and_complete_of_bufp_false {i : Instr} {s : State} {r : Word} (absent : i.bufp = false)
    (idle : s.busy = false) (result : commandResult (issued i s) = some r) :
    exec i s = .next (issued i s) ∧ NextUpToHidden (engineStep (issued i s)) (completed r (issued i s)) :=
  ⟨exec_issue idle ((not_pastTop_iff i s).2 (.inl absent)), _, engineStep_issued_of_bufp_false absent result, rfl⟩

/-- The shift of the encoder brings in a 0 at the top. -/
theorem getLsbD_grayEncode_top (u : Word) : (grayEncode u).getLsbD 31 = u.getLsbD 31 := by
  rw [grayEncode_eq_xorShift_one, getLsbD_xorShift, BitVec.getLsbD_of_ge u (1 + 31) (Nat.le_refl 32), Bool.xor_false]

/-- Settles O18: GRAYENC has no buffer, so it is issued and completed whatever the operands are; the values of the corner
cases are computed. -/
theorem grayencCommandFollowsTheRule : Obligations.GrayencCommandFollowsTheRule := by
  unfold Obligations.GrayencCommandFollowsTheRule
  exact ⟨fun v => decode_eq_ok_iff v .grayenc, decode_error_of_not_legal (by decide),
    fun _ idle => exec_issue_and_complete_of_bufp_false rfl idle rfl, fun _ busy => exec_busy .grayenc busy,
    by decide, by decide, by decide, by decide, by decide, getLsbD_grayEncode_top⟩

/-- Settles O19: GRAYDEC has no buffer, so it is issued and completed whatever the operands are; the values of the corner
cases are computed. -/
theorem graydecCommandFollowsTheRule : Obligations.GraydecCommandFollowsTheRule := by
  unfold Obligations.GraydecCommandFollowsTheRule
  exact ⟨fun v => decode_eq_ok_iff v .graydec, decode_error_of_not_legal (by decide),
    fun _ idle => exec_issue_and_complete_of_bufp_false rfl idle rfl, fun _ busy => exec_busy .graydec busy,
    by decide, by decide, by decide, by decide, by decide⟩

end Sys2Proof.Machine

/-! ## The integer square root (43_isqrt.md) -/

namespace Sys2Proof.Machine

/-! ### The probe bit (43_isqrt.md rule R130) -/

/-- The probe bit with `k` passes left: the highest even bit still to try, and 0 once none is left. -/
def IsProbe (k : Nat) (one : Word) : Prop := one.toNat = 4 ^ k / 4

theorem IsProbe.toNat_succ {k : Nat} {one : Word} (probe : IsProbe (k + 1) one) : one.toNat = 4 ^ k := by
  rw [probe, pow_succ, Nat.mul_div_cancel _ (by decide)]

theorem IsProbe.eq_zero {one : Word} (probe : IsProbe 0 one) : one = 0 := BitVec.eq_of_toNat_eq probe

theorem IsProbe.ne_zero {k : Nat} {one : Word} (probe : IsProbe (k + 1) one) : one ≠ 0 := by
  rintro rfl
  exact absurd probe.toNat_succ (Nat.pow_pos (by decide)).ne

theorem IsProbe.ushiftRight_two {k : Nat} {one : Word} (probe : IsProbe (k + 1) one) : IsProbe k (one >>> 2) := by
  rw [IsProbe, BitVec.toNat_ushiftRight, Nat.shiftRight_eq_div_pow, probe.toNat_succ]

/-- The OR of the probe bit and an even multiple of it is their sum. -/
theorem IsProbe.toNat_or {k m : Nat} {x one : Word} (probe : IsProbe (k + 1) one) (even : x.toNat = 2 * m * 4 ^ k) :
    (x ||| one).toNat = (2 * m + 1) * 4 ^ k := by
  have pow : 2 ^ (2 * k) = 4 ^ k := Nat.pow_mul 2 2 k
  have disjoint := Nat.two_pow_add_eq_or_of_lt (i := 2 * k + 1) (Nat.pow_lt_pow_succ (n := 2 * k) Nat.one_lt_two) m
  rw [pow_succ, pow] at disjoint
  rw [BitVec.toNat_or, probe.toNat_succ, even]
  calc 2 * m * 4 ^ k ||| 4 ^ k = 4 ^ k * 2 * m ||| 4 ^ k := by ring_nf
    _ = 4 ^ k * 2 * m + 4 ^ k := disjoint.symm
    _ = (2 * m + 1) * 4 ^ k := by ring

/-! ### The loops keep a partial root (R130) -/

/-- The loop's state with `k` passes left: `q` is the root of `value` without its low `2 * k` bits, `res` holds `q` above
those bits, and `op` is the remainder. -/
structure PartialRoot (value k q : Nat) (op res : Word) : Prop where
  root : res.toNat = q * 4 ^ k
  remainder : op.toNat + q * q * 4 ^ k = value
  bound : value < (q + 1) * (q + 1) * 4 ^ k

/-- With no pass left the partial root is the root. -/
theorem PartialRoot.eq_sqrt {value q : Nat} {op res : Word} (part : PartialRoot value 0 q op res) :
    res.toNat = Nat.sqrt value := by
  obtain ⟨root, remainder, bound⟩ := part
  rw [pow_zero, mul_one] at root remainder bound
  rw [root, Nat.eq_sqrt]
  exact ⟨by omega, bound⟩

/-- What a pass compares with the remainder: what the square of the root grows by when its next bit is set. -/
theorem PartialRoot.toNat_or {value k q : Nat} {op res one : Word} (part : PartialRoot value (k + 1) q op res)
    (probe : IsProbe (k + 1) one) : (res ||| one).toNat = (4 * q + 1) * 4 ^ k := by
  rw [probe.toNat_or (m := 2 * q) (by rw [part.root]; ring)]
  ring

theorem PartialRoot.toNat_half {value k q : Nat} {op res : Word} (part : PartialRoot value (k + 1) q op res) :
    (res >>> 1).toNat = 2 * q * 4 ^ k := by
  rw [BitVec.toNat_ushiftRight, Nat.shiftRight_eq_div_pow, part.root]
  exact Nat.div_eq_of_eq_mul_left (by decide) (by ring)

/-- A pass whose remainder is large enough sets the next bit of the root. -/
theorem PartialRoot.setBit {value k q : Nat} {op res one : Word} (part : PartialRoot value (k + 1) q op res)
    (probe : IsProbe (k + 1) one) (fits : res ||| one ≤ op) :
    PartialRoot value k (2 * q + 1) (op - (res ||| one)) ((res >>> 1) ||| one) where
  root := probe.toNat_or part.toNat_half
  remainder := by
    have le : (4 * q + 1) * 4 ^ k ≤ op.toNat := part.toNat_or probe ▸ fits
    rw [BitVec.toNat_sub_of_le fits, part.toNat_or probe, ← part.remainder, pow_succ]
    zify [le]
    ring
  bound := part.bound.trans_eq (by ring)

/-- A pass whose remainder is too small leaves the next bit of the root 0. -/
theorem PartialRoot.clearBit {value k q : Nat} {op res one : Word} (part : PartialRoot value (k + 1) q op res)
    (probe : IsProbe (k + 1) one) (short : ¬ res ||| one ≤ op) : PartialRoot value k (2 * q) op (res >>> 1) where
  root := part.toNat_half
  remainder := by rw [← part.remainder]; ring
  bound := by
    have lt : op.toNat < (4 * q + 1) * 4 ^ k := part.toNat_or probe ▸ BitVec.not_le.1 short
    calc value = op.toNat + q * q * 4 ^ (k + 1) := part.remainder.symm
      _ < (4 * q + 1) * 4 ^ k + q * q * 4 ^ (k + 1) := Nat.add_lt_add_right lt _
      _ = (2 * q + 1) * (2 * q + 1) * 4 ^ k := by ring

/-- The loop completes a partial root, whatever passes its bound leaves over. -/
theorem toNat_isqrtLoop {n k : Nat} (enough : k ≤ n) {value q : Nat} {op res one : Word}
    (probe : IsProbe k one) (part : PartialRoot value k q op res) :
    (isqrtLoop n op res one).toNat = Nat.sqrt value := by
  induction n generalizing k q op res one with
  | zero =>
    obtain rfl := Nat.le_zero.1 enough
    exact part.eq_sqrt
  | succ n ih =>
    cases k with
    | zero =>
      rw [isqrtLoop, if_pos probe.eq_zero]
      exact part.eq_sqrt
    | succ k =>
      have left : k ≤ n := Nat.le_of_succ_le_succ enough
      rw [isqrtLoop, if_neg probe.ne_zero]
      split
      case isTrue fits => exact ih left probe.ushiftRight_two (part.setBit probe fits)
      case isFalse short => exact ih left probe.ushiftRight_two (part.clearBit probe short)

/-- The skip loop passes over probe bits above the value only: the root is still 0 at the one it stops at. -/
theorem exists_isProbe_isqrtSkip (n : Nat) {k : Nat} {op one : Word} (probe : IsProbe k one) (lt : op.toNat < 4 ^ k) :
    ∃ j ≤ k, IsProbe j (isqrtSkip n op one) ∧ op.toNat < 4 ^ j := by
  induction n generalizing k one with
  | zero => exact ⟨k, Nat.le_refl k, probe, lt⟩
  | succ n ih =>
    rw [isqrtSkip]
    split
    case isFalse => exact ⟨k, Nat.le_refl k, probe, lt⟩
    case isTrue above =>
      cases k with
      | zero => exact absurd (probe.eq_zero ▸ above) BitVec.not_lt_zero
      | succ k =>
        obtain ⟨j, le, stop⟩ := ih probe.ushiftRight_two (probe.toNat_succ ▸ above)
        exact ⟨j, Nat.le_succ_of_le le, stop⟩

/-- Before the first pass the root is 0 and the remainder is the value. -/
theorem partialRoot_zero {k : Nat} {v : Word} (lt : v.toNat < 4 ^ k) : PartialRoot v.toNat k 0 v 0 where
  root := by simp
  remainder := by simp
  bound := by simpa using lt

/-- `isqrt` is the natural square root, rounded down (R130). -/
theorem toNat_isqrt (v : Word) : (isqrt v).toNat = Nat.sqrt v.toNat := by
  have top : IsProbe 16 isqrtTop := rfl
  obtain ⟨j, enough, probe, lt⟩ := exists_isProbe_isqrtSkip 16 top v.isLt
  exact toNat_isqrtLoop enough probe (partialRoot_zero lt)

/-! ### The law and the command (43_isqrt.md rules R131 and R132) -/

/-- Settles O34: the bounds are those of `Nat.sqrt`, which `isqrt` computes. -/
theorem isqrtIsTheFloorOfTheRoot : Obligations.IsqrtIsTheFloorOfTheRoot := by
  unfold Obligations.IsqrtIsTheFloorOfTheRoot
  intro v
  rw [toNat_isqrt]
  exact ⟨Nat.sqrt_le v.toNat, Nat.lt_succ_sqrt v.toNat⟩

/-- The root of a word fits the low 16 bits of RESULT. -/
theorem toNat_isqrt_le (v : Word) : (isqrt v).toNat ≤ 0xFFFF := by
  rw [toNat_isqrt]
  exact Nat.le_of_lt_succ (Nat.sqrt_lt.2 v.isLt)

/-- A word whose square is the last one not above the value is its root: the form in which the corner cases are checked. -/
theorem isqrt_eq_iff {v r : Word} :
    isqrt v = r ↔ r.toNat * r.toNat ≤ v.toNat ∧ v.toNat < (r.toNat + 1) * (r.toNat + 1) := by
  rw [← BitVec.toNat_inj, toNat_isqrt, eq_comm, Nat.eq_sqrt]

/-- Settles O20: ISQRT has no buffer, so it is issued and completed whatever the operands are; each corner case is the
root that its bounds determine. -/
theorem isqrtCommandFollowsTheRule : Obligations.IsqrtCommandFollowsTheRule := by
  unfold Obligations.IsqrtCommandFollowsTheRule
  refine ⟨fun v => decode_eq_ok_iff v .isqrt, decode_error_of_not_legal (by decide),
    fun _ idle => exec_issue_and_complete_of_bufp_false rfl idle rfl, fun _ busy => exec_busy .isqrt busy,
    toNat_isqrt_le, ?_⟩
  simp only [isqrt_eq_iff]
  decide

end Sys2Proof.Machine

/-! ## Host writes in either phase (60_exceptions.md rules R153 and R160) -/

namespace Sys2Proof.Machine

/-- While BUSY = 1 a write to CMD, A, B or LEN is dropped, and recorded with the register's offset (R153). -/
theorem writeReg_busy {r : Reg} {s : State} (v : Word) (busy : s.busy = true)
    (guarded : r = .cmd ∨ r = .a ∨ r = .b ∨ r = .len) :
    writeReg r v s = .next (s.withError .busyWrite (regOffset r)) := by
  rw [← busyWrite_eq]
  rcases guarded with rfl | rfl | rfl | rfl
  · rw [writeReg, writeCmd, if_pos busy]
  · rw [writeReg, writeA, if_pos busy]
  · rw [writeReg, writeB, if_pos busy]
  · rw [writeReg, writeLen, if_pos busy]

/-- From 0x10 on, STATUS is the only register that a write can change (R21). -/
theorem writeReg_regAt_readOnly {n : Nat} (v : Word) (s : State) (above : 0x10 ≤ n) (notStatus : n ≠ 0x14) :
    writeReg (regAt n) v s = .next s := by
  cases found : regAt n
  case cmd | a | b | len => exact absurd above (by rw [regAt_eq found (by decide)]; decide)
  case status => exact absurd (regAt_eq found (by decide)) notStatus
  all_goals rfl

/-- Settles O8: the offset selects the register, and the three clauses are what a write to it does: dropped and recorded,
the clear of STATUS, or nothing. -/
theorem writeWhileBusy : Obligations.WriteWhileBusy := by
  unfold Obligations.WriteWhileBusy
  refine ⟨fun s v off busy guarded => ?_, fun s v _ => step_hostWrite s v rfl (by decide),
    fun s v off _ aligned above notStatus inside => ?_⟩
  · simp only [List.mem_cons, List.not_mem_nil, or_false] at guarded
    rcases guarded with rfl | rfl | rfl | rfl <;>
      exact (step_hostWrite s v rfl (by decide)).trans (writeReg_busy v busy (by decide))
  · rw [step_hostWrite s v aligned inside]
    exact writeReg_regAt_readOnly v s above fun eq => notStatus (BitVec.eq_of_toNat_eq eq)

/-- While BUSY = 0, a write to CMD of a word that decodes is the write of the decoded command (R160). -/
theorem writeCmd_legal {v : Word} {s : State} {i : Instr} (idle : s.busy = false) (h : decode v = .ok i) :
    writeCmd v s = exec i s := by
  rw [eq_encode_of_decode h, writeCmd_encode i idle]

/-- Settles O10: the decoder decides between ILLEGAL_OP and the command write, and R56's condition between the two outcomes
of the command write. -/
theorem issueFollowsTheRule : Obligations.IssueFollowsTheRule := by
  unfold Obligations.IssueFollowsTheRule
  intro s v idle
  rw [step_cmd]
  refine ⟨fun why rejected => writeCmd_illegal idle rejected, fun i accepted => ?_⟩
  rw [writeCmd_legal idle accepted]
  exact ⟨exec_range idle, exec_issue idle⟩

end Sys2Proof.Machine

/-! ## The engine's two steps (60_exceptions.md rules R161 to R163) -/

namespace Sys2Proof.Machine

/-- Settles O13: `engineStep_byte` gives the step's value, and whether the address is Readable selects the fold or the
MEM_FAULT. -/
theorem byteStepFollowsTheRule : Obligations.ByteStepFollowsTheRule := by
  unfold Obligations.ByteStepFollowsTheRule
  intro s busy crc buffer below addr addrEq
  have enabled : byteStepEnabled s = true := (byteStepEnabled_iff s).2 ⟨busy, crc, buffer, below⟩
  rw [engineStep_byte enabled addrEq]
  constructor
  · intro unreadable
    rw [if_neg (by simp [unreadable])]
    exact ⟨_, rfl, rfl⟩
  · intro readable
    rw [if_pos readable]
    rfl

/-- The three ways in which the byte step is not enabled while BUSY = 1 (R163). -/
theorem byteStepEnabled_eq_false {s : State}
    (h : (s.latch.op ≠ 1 ∧ s.latch.op ≠ 2) ∨ s.latch.bufp = false ∨ s.latch.len.toNat ≤ s.k.toNat) :
    byteStepEnabled s = false := by
  rw [← Bool.not_eq_true, byteStepEnabled_iff]
  rintro ⟨-, crc, buffer, below⟩
  rcases h with ⟨not16, not32⟩ | absent | finished
  · exact crc.elim not16 not32
  · exact Bool.false_ne_true (absent.symm.trans buffer)
  · exact absurd below (Nat.not_lt.2 finished)

/-- The result of each operation (R162). -/
theorem commandResult_of_op (s : State) :
    (s.latch.op = 1 → commandResult s = some (lowHalf s.acc)) ∧
    (s.latch.op = 2 → commandResult s = some s.acc) ∧
    (s.latch.op = 3 → commandResult s = some (gcd32 s.latch.a s.latch.b)) ∧
    (s.latch.op = 4 → commandResult s = some (grayEncode s.latch.a)) ∧
    (s.latch.op = 5 → commandResult s = some (grayDecode s.latch.a)) ∧
    (s.latch.op = 6 → commandResult s = some (isqrt s.latch.a)) := by
  refine ⟨?_, ?_, ?_, ?_, ?_, ?_⟩ <;> (intro op; rw [commandResult, op]; rfl)

/-- Settles O14: the byte step is not enabled, so the engine completes the command with the result of its operation. -/
theorem completionFollowsTheRule : Obligations.CompletionFollowsTheRule := by
  unfold Obligations.CompletionFollowsTheRule
  intro s busy noByte
  have completes {r : Word} (result : commandResult s = some r) : NextUpToHidden (engineStep s) (completed r s) :=
    ⟨_, engineStep_completion busy (byteStepEnabled_eq_false noByte) result, rfl⟩
  obtain ⟨crc16, crc32, gcd, grayenc, graydec, isqrt⟩ := commandResult_of_op s
  rw [lowHalf_eq] at crc16
  exact ⟨completes ∘ crc16, completes ∘ crc32, completes ∘ gcd, completes ∘ grayenc, completes ∘ graydec,
    completes ∘ isqrt⟩

end Sys2Proof.Machine

/-! ## The reset event (70_reset_and_hazards.md rules R180 and R181) -/

namespace Sys2Proof.Machine

@[simp] theorem resetEvent_a (s : State) : (resetEvent s).a = 0 := rfl
@[simp] theorem resetEvent_b (s : State) : (resetEvent s).b = 0 := rfl
@[simp] theorem resetEvent_len (s : State) : (resetEvent s).len = 0 := rfl
@[simp] theorem resetEvent_result (s : State) : (resetEvent s).result = 0 := rfl
@[simp] theorem resetEvent_errinfo (s : State) : (resetEvent s).errinfo = 0 := rfl
@[simp] theorem resetEvent_busy (s : State) : (resetEvent s).busy = false := rfl
@[simp] theorem resetEvent_done (s : State) : (resetEvent s).done = false := rfl
@[simp] theorem resetEvent_err (s : State) : (resetEvent s).err = false := rfl
@[simp] theorem resetEvent_errcode (s : State) : (resetEvent s).errcode = .none := rfl
@[simp] theorem resetEvent_params (s : State) : (resetEvent s).params = s.params := rfl
@[simp] theorem resetEvent_mem (s : State) : (resetEvent s).mem = s.mem := rfl
@[simp] theorem resetEvent_history (s : State) : (resetEvent s).history = s.history := rfl

/-- STATUS reads 0 when no flag is set and no error is recorded (R27). -/
theorem statusWord_eq_zero {s : State} (busy : s.busy = false) (done : s.done = false) (err : s.err = false)
    (errcode : s.errcode = .none) : statusWord s = 0 := by
  rw [statusWord, busy, done, err, errcode]
  rfl

/-- CONFIG, POLY16 and POLY32 are read from the parameters alone (R29 to R31). -/
theorem readReg_configuration_congr {s t : State} (kept : t.params = s.params) :
    readReg .config t = readReg .config s ∧ readReg .poly16 t = readReg .poly16 s ∧
      readReg .poly32 t = readReg .poly32 s := by
  simp only [readReg, kept, and_self]

/-- Settles O44: the next state is `resetEvent`'s in either phase. Its flags are clear, so STATUS is 0; its parameters are
those before the reset, so the configuration registers and the tables, which depend on nothing else, are the same. -/
theorem resetEventGivesTheResetValues : Obligations.ResetEventGivesTheResetValues := by
  unfold Obligations.ResetEventGivesTheResetValues
  intro s
  have status : statusWord (resetEvent s) = 0 := statusWord_eq_zero rfl rfl rfl rfl
  obtain ⟨config, poly16, poly32⟩ := readReg_configuration_congr (resetEvent_params s)
  refine ⟨resetEvent s, step_withEvent s .reset, ?_⟩
  simp [status, config, poly16, poly32]

end Sys2Proof.Machine

/-! ## The decoder and the step that runs a command (30_encoding.md rules R70 to R74, 60_exceptions.md rule R160) -/

namespace Sys2Proof.Machine

/-- Settles O1: an encoding decodes to its command, and the fields of a word that decodes are those of the command. -/
theorem decodeAcceptsExactlyTheEncodings : Obligations.DecodeAcceptsExactlyTheEncodings := by
  unfold Obligations.DecodeAcceptsExactlyTheEncodings
  exact decode_eq_ok_iff

/-- Settles O5: each of the eleven words is evaluated. -/
theorem wordsWrittenOutDecode : Obligations.WordsWrittenOutDecode := by
  unfold Obligations.WordsWrittenOutDecode
  decide

/-- A step whose event is a write to CMD is that write, on the state without the event. -/
theorem step_of_cmdEvent {s : State} {v : Word} {rest : List Event} (next : s.pending = cmdEvent s.params v :: rest) :
    step s = writeCmd v { s with pending := rest } := by
  rw [step, next]
  exact step_cmd { s with pending := rest } v

/-- A write of a word that decodes is the write of its command in either phase: a busy block drops both alike. -/
theorem writeCmd_of_decode {v : Word} {i : Instr} (s : State) (accepted : decode v = .ok i) :
    writeCmd v s = exec i s := by
  rcases writeCmd_cases (v := v) (s := s) rfl with ⟨busy, dropped⟩ | ⟨-, ⟨_, rejected⟩, -⟩ | ⟨idle, -⟩
  · rw [dropped, exec_busy i busy]
  · rw [accepted] at rejected; cases rejected
  · exact writeCmd_legal idle accepted

/-- The decoder reads a row of the opcode table as it reads the word that `withFetchWord` places. -/
theorem decode_of_decodeTableWord {nbits w : Nat} {i : Instr} (row : decodeTableWord nbits w = some i) :
    decode (BitVec.ofNat 32 (w % 2 ^ nbits)) = .ok i := by
  unfold decodeTableWord at row
  split at row
  · cases decoded : decode (BitVec.ofNat 32 (w % 2 ^ nbits)) with
    | error why => rw [decoded] at row; cases row
    | ok j => rw [decoded] at row; exact congrArg Except.ok (Option.some.inj row)
  · cases row

/-- Settles O6: the event is a write to CMD, which is the write of the decoded command; `withFetchWord` places such an
event. -/
theorem stepRunsTheDecodedCommand : Obligations.StepRunsTheDecodedCommand := by
  unfold Obligations.StepRunsTheDecodedCommand
  constructor
  · intro s v i rest next accepted
    rw [step_of_cmdEvent next, writeCmd_of_decode _ accepted]
  · intro s w i row
    have placed : (s.withFetchWord 32 w).pending =
        cmdEvent (s.withFetchWord 32 w).params (BitVec.ofNat 32 (w % 2 ^ 32)) :: s.pending := rfl
    rw [step_of_cmdEvent placed, writeCmd_of_decode _ (decode_of_decodeTableWord row)]
    rfl

end Sys2Proof.Machine

/-! ## The byte lanes (20_memory.md rule R58) -/

namespace Sys2Proof.Machine

/-- The value of two bit vectors put together. -/
theorem toNat_append_eq {m n : Nat} (high : BitVec m) (low : BitVec n) :
    (high ++ low).toNat = low.toNat + 2 ^ n * high.toNat := by
  rw [BitVec.toNat_append, ← Nat.shiftLeft_add_eq_or_of_lt low.isLt, Nat.shiftLeft_eq, Nat.mul_comm, Nat.add_comm]

/-- A value put together from four lanes, lane 0 the least significant. -/
theorem toNat_wordOfLanes (l0 l1 l2 l3 : Byte) :
    (wordOfLanes l0 l1 l2 l3).toNat = l0.toNat + 2 ^ 8 * l1.toNat + 2 ^ 16 * l2.toNat + 2 ^ 24 * l3.toNat := by
  rw [wordOfLanes, toNat_append_eq, toNat_append_eq, toNat_append_eq]
  omega

/-- A lane holds the value's digit to the base 2^8. -/
theorem toNat_lane (v : Word) (j : Nat) : (lane v j).toNat = v.toNat / 2 ^ (8 * j) % 2 ^ 8 := by
  rw [lane, BitVec.extractLsb'_toNat, Nat.shiftRight_eq_div_pow]

/-- Settles O59: a value is the sum of its digits to the base 2^8, which its lanes hold. -/
theorem lanesAreLittleEndian : Obligations.LanesAreLittleEndian := by
  unfold Obligations.LanesAreLittleEndian
  refine ⟨fun v => BitVec.eq_of_toNat_eq ?_, toNat_wordOfLanes⟩
  have inside := v.isLt
  simp only [toNat_wordOfLanes, toNat_lane]
  omega

end Sys2Proof.Machine

/-! ## The tables, the check values and the chaining law (40_crc.md) -/

namespace Sys2Proof.Machine

/-- Settles O25: a fold over an append is the fold over its parts in turn. -/
theorem crcChains : Obligations.CrcChains := by
  unfold Obligations.CrcChains
  exact ⟨fun p _ _ _ => (List.foldl_append (f := fold16 p)).symm,
    fun p _ _ _ => (List.foldl_append (f := fold32 p)).symm⟩

/-- Settles O27: a table is generated from its polynomial alone, and the listed entries of the four are computed. -/
theorem tablesHoldTheListedEntries : Obligations.TablesHoldTheListedEntries := by
  unfold Obligations.TablesHoldTheListedEntries
  refine ⟨fun p modbus => ?_, fun p x25 => ?_, fun p ieee => ?_, fun p alt => ?_,
    fun p => ⟨tableEntry_zero (poly16 p), tableEntry_zero (poly32 p)⟩⟩
  · simp only [t16, poly16_of_modbus modbus]; decide
  · simp only [t16, poly16_of_x25 x25]; decide
  · simp only [t32, poly32_of_ieee ieee]; decide
  · simp only [t32, poly32_of_crc32cAlt alt]; decide

/-- Settles O28: with the polynomials known the four folds are computed. -/
theorem sourceCheckValues : Obligations.SourceCheckValues := by
  unfold Obligations.SourceCheckValues
  intro p modbus ieee
  simp only [crcSeq16, crcSeq32, List.foldl, fold16, fold32, t16, t32, poly16_of_modbus modbus, poly32_of_ieee ieee]
  decide

end Sys2Proof.Machine

/-! ## The operations without a buffer (41_gcd.md rule R110, 42_gray.md rule R120, 43_isqrt.md rule R130) -/

namespace Sys2Proof.Machine

/-- Settles O29: `gcd32_toNat` is the statement. -/
theorem binaryGcdIsTheGcd : Obligations.BinaryGcdIsTheGcd := by
  unfold Obligations.BinaryGcdIsTheGcd
  exact gcd32_toNat

/-- The XOR of the `n` bits of a word from bit `i` on. -/
def xorOfBits (g : Word) (i n : Nat) : Bool := ((List.range n).map fun j => g.getLsbD (i + j)).foldl Bool.xor false

theorem xorOfBits_succ (g : Word) (i n : Nat) :
    xorOfBits g i (n + 1) = Bool.xor (xorOfBits g i n) (g.getLsbD (i + n)) := by
  simp [xorOfBits, List.range_succ]

/-- A run of bits is a shorter run and the run that goes on from it. -/
theorem xorOfBits_add (g : Word) (i m n : Nat) :
    xorOfBits g i (m + n) = Bool.xor (xorOfBits g i m) (xorOfBits g (i + m) n) := by
  induction n with
  | zero => exact (Bool.xor_false _).symm
  | succ n ih => rw [← Nat.add_assoc, xorOfBits_succ, xorOfBits_succ, ih, Nat.add_assoc i, Bool.xor_assoc]

/-- Above the top of a word there are no bits. -/
theorem xorOfBits_above_top (g : Word) {i : Nat} (above : 32 ≤ i) (n : Nat) : xorOfBits g i n = false := by
  induction n with
  | zero => rfl
  | succ n ih => rw [xorOfBits_succ, ih, BitVec.getLsbD_of_ge g (i + n) (by omega), Bool.xor_false]

/-- A step of the cascade by `n` doubles the runs of `n` bits. -/
theorem getLsbD_xorShift_of_runs {g u : Word} {n : Nat} (runs : ∀ i, u.getLsbD i = xorOfBits g i n) (i : Nat) :
    (xorShift n u).getLsbD i = xorOfBits g i (n + n) := by
  rw [getLsbD_xorShift, runs, runs, xorOfBits_add, Nat.add_comm n i]

/-- After the five steps each bit is the XOR of the 32 bits from its place on. -/
theorem getLsbD_grayDecode (g : Word) (i : Nat) : (grayDecode g).getLsbD i = xorOfBits g i 32 := by
  have start (i : Nat) : g.getLsbD i = xorOfBits g i 1 := by simp [xorOfBits]
  have two := getLsbD_xorShift_of_runs start
  have four := getLsbD_xorShift_of_runs two
  have eight := getLsbD_xorShift_of_runs four
  have sixteen := getLsbD_xorShift_of_runs eight
  exact getLsbD_xorShift_of_runs sixteen i

/-- Settles O32: of the 32 bits those from 32 on are 0, and the steps of the cascade commute. -/
theorem grayDecodeBitIsTheXorOfTheBitsAbove : Obligations.GrayDecodeBitIsTheXorOfTheBitsAbove := by
  unfold Obligations.GrayDecodeBitIsTheXorOfTheBitsAbove
  refine ⟨fun g i inside => ?_, fun order perm g => ?_⟩
  · have split := xorOfBits_add g i (32 - i) i
    have above := xorOfBits_above_top g (i := i + (32 - i)) (by omega) i
    rw [Nat.sub_add_cancel (Nat.le_of_lt inside), above, Bool.xor_false] at split
    exact (getLsbD_grayDecode g i).trans split
  · exact perm.foldl_eq' (fun m _ n _ u => xorShift_comm n m u) g

/-- Without the skip loop too the loop computes the natural square root: all its 16 passes are left. -/
theorem toNat_isqrtWithoutSkip (v : Word) : (isqrtWithoutSkip v).toNat = Nat.sqrt v.toNat := by
  have top : IsProbe 16 isqrtTop := rfl
  exact toNat_isqrtLoop (Nat.le_refl 16) top (partialRoot_zero v.isLt)

/-- Settles O35: both compute the natural square root. -/
theorem isqrtSkipLoopChangesNothing : Obligations.IsqrtSkipLoopChangesNothing := by
  unfold Obligations.IsqrtSkipLoopChangesNothing
  intro v
  exact BitVec.eq_of_toNat_eq ((toNat_isqrt v).trans (toNat_isqrtWithoutSkip v).symm)

end Sys2Proof.Machine

/-! ## The data space (20_memory.md rule R52) -/

namespace Sys2Proof.Machine

theorem wfFrom_cons_iff {lo a : Nat} {v : Byte} {m : Memory} :
    Memory.wfFrom lo ((a, v) :: m) = true ↔ lo ≤ a ∧ a < 2 ^ 32 ∧ v ≠ Memory.unlisted ∧ m.wfFrom (a + 1) = true := by
  simp only [Memory.wfFrom, Bool.and_eq_true, decide_eq_true_eq, and_assoc]

/-- At the address of its first cell a list holds that cell's byte. -/
theorem read_cons_self (a : Nat) (v : Byte) (m : Memory) : Memory.read ((a, v) :: m) a = v := if_pos rfl

theorem read_cons_of_ne {a x : Nat} (v : Byte) (m : Memory) (ne : a ≠ x) :
    Memory.read ((a, v) :: m) x = m.read x := if_neg ne

/-- The first cell of a well-formed list is the first address at which the list holds something else than an unlisted
byte, so a list that reads the same starts no later. -/
theorem firstAddress_le {lo a b : Nat} {v w : Byte} {m m' : Memory} (wf : Memory.wfFrom lo ((a, v) :: m) = true)
    (wf' : Memory.wfFrom lo ((b, w) :: m') = true)
    (same : ∀ x, Memory.read ((a, v) :: m) x = Memory.read ((b, w) :: m') x) : b ≤ a := by
  by_contra later
  obtain ⟨-, -, listed, -⟩ := wfFrom_cons_iff.1 wf
  obtain ⟨-, inside, ne, rest⟩ := wfFrom_cons_iff.1 wf'
  have starts : Memory.wfFrom b ((b, w) :: m') = true := wfFrom_cons_iff.2 ⟨Nat.le_refl b, inside, ne, rest⟩
  have byte := same a
  rw [read_cons_self, read_below starts (by omega)] at byte
  exact listed byte

/-- Well-formed lists that read the same everywhere are equal. -/
theorem eq_of_read_eq {m m' : Memory} {lo : Nat} (wf : m.wfFrom lo = true) (wf' : m'.wfFrom lo = true)
    (same : ∀ x, m.read x = m'.read x) : m = m' := by
  induction m generalizing m' lo with
  | nil =>
    cases m' with
    | nil => rfl
    | cons c m' =>
      obtain ⟨b, w⟩ := c
      obtain ⟨-, -, listed, -⟩ := wfFrom_cons_iff.1 wf'
      exact absurd ((same b).trans (read_cons_self b w m')).symm listed
  | cons c m ih =>
    obtain ⟨a, v⟩ := c
    obtain ⟨-, -, listed, tail⟩ := wfFrom_cons_iff.1 wf
    cases m' with
    | nil => exact absurd ((read_cons_self a v m).symm.trans (same a)) listed
    | cons c' m' =>
      obtain ⟨b, w⟩ := c'
      obtain rfl : a = b :=
        Nat.le_antisymm (firstAddress_le wf' wf fun x => (same x).symm) (firstAddress_le wf wf' same)
      have byte : v = w := by simpa only [read_cons_self] using same a
      obtain ⟨-, -, -, tail'⟩ := wfFrom_cons_iff.1 wf'
      rw [byte, ih tail tail' fun x => ?_]
      by_cases first : a = x
      · rw [← first, read_below tail (Nat.lt_succ_self a), read_below tail' (Nat.lt_succ_self a)]
      · rw [← read_cons_of_ne v m first, same, read_cons_of_ne w m' first]

/-- Writes to different addresses commute. -/
theorem write_comm {m : Memory} (wf : m.wf = true) {a b : Word} (v w : Byte) (ne : a ≠ b) :
    (m.write a.toNat v).write b.toNat w = (m.write b.toNat w).write a.toNat v := by
  have wfA := write_wf (v := v) a.isLt wf
  have wfB := write_wf (v := w) b.isLt wf
  have neNat : a.toNat ≠ b.toNat := BitVec.toNat_ne_iff_ne.2 ne
  refine eq_of_read_eq (write_wf b.isLt wfA) (write_wf a.isLt wfB) fun x => ?_
  rw [read_write wfA, read_write wf, read_write wfB, read_write wf]
  by_cases atA : x = a.toNat
  · rw [if_pos atA, if_pos atA, if_neg (atA ▸ neNat)]
  · rw [if_neg atA, if_neg atA]

/-- A second write to an address replaces the first. -/
theorem write_write {m : Memory} (wf : m.wf = true) (a : Word) (v w : Byte) :
    (m.write a.toNat v).write a.toNat w = m.write a.toNat w := by
  have wfA := write_wf (v := v) a.isLt wf
  refine eq_of_read_eq (write_wf a.isLt wfA) (write_wf a.isLt wf) fun x => ?_
  rw [read_write wfA, read_write wf, read_write wf]
  by_cases atA : x = a.toNat
  · rw [if_pos atA, if_pos atA]
  · rw [if_neg atA, if_neg atA, if_neg atA]

/-- Settles O58: equal contents are equal lists, and both sides of each law of the writes have equal contents. -/
theorem equalContentsAreEqualData : Obligations.EqualContentsAreEqualData := by
  unfold Obligations.EqualContentsAreEqualData
  exact ⟨fun _ _ wf wf' same => eq_of_read_eq wf wf' same,
    fun _ a _ v w wf => ⟨write_comm wf v w, write_write wf a v w⟩⟩

end Sys2Proof.Machine

/-! ## STATUS and the register window (10_state.md rules R20 to R28) -/

namespace Sys2Proof.Machine

/-- The bits of STATUS, whatever its flags and its error code are (R27). -/
theorem statusWord_bits (s : State) :
    (statusWord s).getLsbD 0 = s.busy ∧ (statusWord s).getLsbD 1 = s.done ∧ (statusWord s).getLsbD 2 = s.err ∧
      (statusWord s).getLsbD 3 = false ∧ (statusWord s).extractLsb' 4 4 = s.errcode.code ∧
      (statusWord s).toNat < 256 := by
  unfold statusWord
  generalize s.errcode.code = code
  generalize s.err = err
  generalize s.done = done
  generalize s.busy = busy
  revert code err done busy
  decide

/-- Settles O38: the layout is `statusWord_bits`, and the codes are read off their definition. -/
theorem statusLayout : Obligations.StatusLayout := by
  unfold Obligations.StatusLayout
  exact ⟨statusWord_bits, rfl, rfl, rfl, rfl, rfl⟩

/-- Settles O37: a write to STATUS clears the error or does nothing, by bit 2, in either phase. -/
theorem statusWriteClearsTheError : Obligations.StatusWriteClearsTheError := by
  unfold Obligations.StatusWriteClearsTheError
  intro s v
  have write : step (s.withEvent (.hostWrite (s.params.base + 0x14) .word v)) = .next (writeStatus v s) :=
    step_hostWrite s v rfl (by decide)
  constructor
  · intro set
    rw [write, writeStatus, if_pos set]
    rfl
  · intro unset
    rw [write, writeStatus, if_neg fun set => Bool.false_ne_true (unset.symm.trans set)]

section
variable {s : State} (idle : s.busy = false) (v : Word)
include idle

/-- While BUSY = 0 a write to A stores the value (R23). -/
theorem writeReg_a_of_idle : writeReg .a v s = .next { s with a := v } := by
  rw [writeReg, writeA, if_neg (by simp [idle])]

/-- While BUSY = 0 a write to B stores the value (R24). -/
theorem writeReg_b_of_idle : writeReg .b v s = .next { s with b := v } := by
  rw [writeReg, writeB, if_neg (by simp [idle])]

/-- While BUSY = 0 a write to LEN stores the value (R25). -/
theorem writeReg_len_of_idle : writeReg .len v s = .next { s with len := v } := by
  rw [writeReg, writeLen, if_neg (by simp [idle])]

end

/-- Settles O41: each of the three offsets reaches its register, which stores the value while BUSY = 0. -/
theorem operandWriteWhileIdle : Obligations.OperandWriteWhileIdle := by
  unfold Obligations.OperandWriteWhileIdle
  intro s v idle
  exact ⟨(step_hostWrite s v rfl (by decide)).trans (writeReg_a_of_idle idle v),
    (step_hostWrite s v rfl (by decide)).trans (writeReg_b_of_idle idle v),
    (step_hostWrite s v rfl (by decide)).trans (writeReg_len_of_idle idle v)⟩

/-- Settles O42: none of the offsets reaches a register that a write can change. -/
theorem readOnlyWriteHasNoEffect : Obligations.ReadOnlyWriteHasNoEffect := by
  unfold Obligations.ReadOnlyWriteHasNoEffect
  intro s v off aligned above notStatus inside
  rw [step_hostWrite s v aligned inside]
  exact writeReg_regAt_readOnly v s above fun eq => notStatus (BitVec.eq_of_toNat_eq eq)

/-- Settles O43: the access check, which both kinds of access make first, refuses it. -/
theorem otherAccessesAreRefused : Obligations.OtherAccessesAreRefused := by
  unfold Obligations.OtherAccessesAreRefused
  intro s v off w inside other
  have refused := access_refused s.params inside other
  constructor
  · rw [step_withEvent, perform, hostWrite, refused]
  · rw [step_withEvent, perform, hostRead, refused]

/-- A word read inside the window records the register at its offset. -/
theorem step_hostRead (s : State) {off : Word} (aligned : off.toNat % 4 = 0) (inside : off.toNat < 0x40) :
    step (s.withEvent (.hostRead (s.params.base + off) .word)) =
      .next { s with history := .hostRead (s.params.base + off) (readReg (regAt off.toNat) s) :: s.history } := by
  rw [step_withEvent, perform, hostRead, access_word s.params aligned inside]

/-- The value of the register at each offset. CMD and the reserved offsets read 0 alike. -/
theorem readReg_regAt (off : Word) (s : State) :
    readReg (regAt off.toNat) s =
      if off = 0x04 then s.a else if off = 0x08 then s.b else if off = 0x0C then s.len
      else if off = 0x10 then s.result else if off = 0x14 then statusWord s else if off = 0x18 then s.errinfo
      else if off = 0x1C then configWord s.params else if off = 0x20 then (poly16 s.params).setWidth 32
      else if off = 0x24 then poly32 s.params else 0 := by
  simp only [← BitVec.toNat_inj]
  generalize off.toNat = n
  unfold regAt
  split
  case h_11 => simp_all [readReg]
  all_goals rfl

/-- Settles O39: the read records the value of the register at its offset. -/
theorem hostReadReturnsTheRegister : Obligations.HostReadReturnsTheRegister := by
  unfold Obligations.HostReadReturnsTheRegister
  intro s off aligned inside
  rw [step_hostRead s aligned inside, readReg_regAt]

end Sys2Proof.Machine

/-! ## The command write (60_exceptions.md rule R160) -/

namespace Sys2Proof.Machine

/-- Settles O11: `exec_issue` is the statement. -/
theorem everyCommandIssues : Obligations.EveryCommandIssues := by
  unfold Obligations.EveryCommandIssues
  exact fun _ _ => exec_issue

/-- Settles O12: each of the three outcomes of a command write is a state written out, of which every clause can be read
off. -/
theorem commandWriteFrame : Obligations.CommandWriteFrame := by
  unfold Obligations.CommandWriteFrame
  intro i s t write
  rcases exec_cases i s with ⟨busy, outcome⟩ | ⟨idle, past, outcome⟩ | ⟨idle, fits, outcome⟩
  all_goals
    rw [outcome] at write
    obtain rfl := Host.Outcome.next.inj write
    refine ⟨rfl, rfl, rfl, rfl, rfl, rfl, rfl, rfl, fun _ => rfl, ?_⟩
  case inl => simp [State.withError, busy]
  case inr.inl => simp [State.withError, idle, past]
  case inr.inr => simp [issued, idle, fits]

end Sys2Proof.Machine

/-! ## The engine (60_exceptions.md rules R161 to R164) -/

namespace Sys2Proof.Machine

/-- An idle engine takes no step. -/
theorem engineStep_of_idle {s : State} (idle : s.busy = false) : engineStep s = .next s := by
  rw [engineStep, if_neg (by simp [idle])]

/-- Settles O7: the three clauses are what `step` does with no event and with an engine event, and what `engineStep`
does while idle. -/
theorem engineActsOnlyWhileBusy : Obligations.EngineActsOnlyWhileBusy := by
  unfold Obligations.EngineActsOnlyWhileBusy
  exact ⟨fun _ => step_of_pending_nil, fun s => step_withEvent s .engine, fun _ => engineStep_of_idle⟩

/-- The word at the buffer address, where that is one (R55). -/
theorem ofNat_bufferAddress {s : State} {addr : Word} (address : addr.toNat = bufferAddress s) :
    BitVec.ofNat 32 (s.latch.b.toNat + s.k.toNat) = addr := by
  rw [← bufferAddress, ← address, BitVec.ofNat_toNat, BitVec.setWidth_eq]

/-- Settles O15: an idle step and the two that end the command read nothing, and a byte step reads the byte at
lat_b + k. -/
theorem engineStepFrame : Obligations.EngineStepFrame := by
  unfold Obligations.EngineStepFrame
  intro s t acts
  rcases engineStep_cases acts with ⟨-, rfl⟩ | ⟨enabled, addr, address, ⟨-, rfl⟩ | ⟨-, rfl⟩⟩ | ⟨-, -, r, -, rfl⟩
  case inr.inl.inl =>
    obtain ⟨busy, crc, buffer, below⟩ := (byteStepEnabled_iff s).1 enabled
    have record : (foldByte addr s).history = .engineRead (BitVec.ofNat 32 (s.latch.b.toNat + s.k.toNat))
        (s.mem.read (s.latch.b.toNat + s.k.toNat)) :: s.history := by
      rw [ofNat_bufferAddress address, ← bufferAddress, ← address, foldByte_history]
    exact ⟨rfl, rfl, rfl, rfl, rfl, rfl, fun _ => rfl, .inr ⟨busy, buffer, crc, below, record⟩, rfl,
      fun same => absurd same (List.cons_ne_self _ _)⟩
  all_goals exact ⟨rfl, rfl, rfl, rfl, rfl, rfl, fun _ => rfl, .inl rfl, rfl, fun _ => ⟨rfl, rfl⟩⟩

end Sys2Proof.Machine

/-! ## The invariant of the block (10_state.md rules R27, R28 and R33, 60_exceptions.md rule R151) -/

namespace Sys2Proof.Machine

/-- What ERRINFO holds for each code of an error (R28). -/
def InfoFits (p : Params) (info : Word) : ErrCode → Prop
  | .none => info = 0
  | .illegalOp => ∃ why, decode info = .error why
  | .busyWrite => info ∈ ([0x00, 0x04, 0x08, 0x0C] : List Word)
  | .range => 2 ≤ info.toNat
  | .memFault => isReadable p info = false

/-- The invariant's five clauses on ERRINFO are one, by the code. -/
theorem State.Inv.infoFits {s : State} (inv : s.Inv) : InfoFits s.params s.errinfo s.errcode := by
  cases code : s.errcode with
  | none => exact inv.infoNone code
  | illegalOp => exact inv.infoIllegal code
  | busyWrite => exact inv.infoBusy code
  | range => exact inv.infoRange code
  | memFault => exact inv.infoFault code

/-- The invariant, from its parts. -/
theorem State.Inv.mk' {s : State} (busyDone : s.busy = true → s.done = false)
    (errCode : s.err = true ↔ s.errcode ≠ .none) (info : InfoFits s.params s.errinfo s.errcode)
    (memWf : s.mem.wf = true) (running : s.busy = true → s.Running) : s.Inv where
  busyDone := busyDone
  errCode := errCode
  infoNone code := by rwa [code] at info
  infoIllegal code := by rwa [code] at info
  infoBusy code := by rwa [code] at info
  infoRange code := by rwa [code] at info
  infoFault code := by rwa [code] at info
  memWf := memWf
  running := running

/-- With no error recorded nothing is asked of the error state. -/
theorem State.Inv.of_no_error {s : State} (busyDone : s.busy = true → s.done = false) (err : s.err = false)
    (errcode : s.errcode = .none) (errinfo : s.errinfo = 0) (memWf : s.mem.wf = true)
    (running : s.busy = true → s.Running) : s.Inv :=
  .mk' busyDone (iff_of_false (by simp [err]) (by simp [errcode])) (by rw [errcode, errinfo]; exact rfl) memWf running

/-- Neither the events to come nor the record nor the draws of free values are in the invariant. -/
theorem State.Inv.outside {s : State} (inv : s.Inv) (es : List Event) (h : List Observation) (n : Nat) :
    { s with pending := es, history := h, resets := n }.Inv :=
  { inv with running := fun busy => { inv.running busy with } }

/-- Recording an error with the information that its code asks for keeps the invariant. -/
theorem State.Inv.withError {s : State} (inv : s.Inv) {code : ErrCode} {info : Word} (isError : code ≠ .none)
    (fits : InfoFits s.params info code) : (s.withError code info).Inv := by
  refine .mk' inv.busyDone ?_ ?_ inv.memWf fun busy => { inv.running busy with }
  · change true = true ↔ (if s.err = true then s.errcode else code) ≠ .none
    split
    · rename_i erred
      exact iff_of_true rfl (inv.errCode.1 erred)
    · exact iff_of_true rfl isError
  · change InfoFits s.params (if s.err = true then s.errinfo else info) (if s.err = true then s.errcode else code)
    split
    · exact inv.infoFits
    · exact fits

theorem State.Inv.busyWrite {s : State} (inv : s.Inv) {off : Word}
    (named : off ∈ ([0x00, 0x04, 0x08, 0x0C] : List Word)) :
    (s.withError .busyWrite off).Inv := inv.withError (by decide) named

/-- With BUSY = 0 nothing is asked of the hidden state, of DONE, of RESULT or of the operands. -/
theorem State.Inv.idle {s t : State} (inv : s.Inv) (idle : t.busy = false) (err : t.err = s.err)
    (errcode : t.errcode = s.errcode) (errinfo : t.errinfo = s.errinfo) (params : t.params = s.params)
    (mem : t.mem = s.mem) : t.Inv := by
  have notBusy : ¬ t.busy = true := by simp [idle]
  refine .mk' (fun busy => absurd busy notBusy) ?_ ?_ ?_ fun busy => absurd busy notBusy
  · rw [err, errcode]; exact inv.errCode
  · rw [params, errinfo, errcode]; exact inv.infoFits
  · rw [mem]; exact inv.memWf

theorem State.Inv.clearError {s : State} (inv : s.Inv) : (clearError s).Inv :=
  .of_no_error inv.busyDone rfl rfl rfl inv.memWf fun busy => { inv.running busy with }

theorem State.Inv.dataWrite {s : State} (inv : s.Inv) (addr : Word) (v : Byte) : (dataWrite addr v s).Inv :=
  { inv with memWf := write_wf addr.isLt inv.memWf, running := fun busy => { inv.running busy with } }

/-- After a reset there is no error and no running command, whatever was before. -/
theorem State.Inv.resetEvent {s : State} (inv : s.Inv) : (resetEvent s).Inv :=
  .of_no_error (fun _ => rfl) rfl rfl rfl inv.memWf fun busy => absurd busy Bool.false_ne_true

/-- A command that was issued meets what is asked of a running one: its fields are those of a command, and where it has a
buffer, the buffer fits. -/
theorem running_issued {i : Instr} {s : State} (fits : ¬ PastTop i s) : (issued i s).Running where
  legal := by
    have decodes : decodeFields i.fields = .ok i := by rw [← decode_word]; exact decode_encode i
    exact (decodeFields_isOk i.fields).symm.trans (congrArg Except.toBool decodes)
  latA := rfl
  latB := rfl
  latLen := rfl
  fits buffer nonempty := by
    rcases (not_pastTop_iff i s).1 fits with absent | empty | inside
    · exact absurd (absent.symm.trans buffer) Bool.false_ne_true
    · exact absurd nonempty (by rw [show (issued i s).latch.len = 0 from empty]; decide)
    · exact inside
  index := Nat.zero_le _
  noIndex _ := rfl
  acc16 := by
    cases i with
    | crc16 bufp =>
      have small := lowHalf_lt s.a
      rw [lowHalf_eq] at small
      exact fun _ => small
    | crc32 bufp | gcd | grayenc | graydec | isqrt => exact fun op => absurd op (by simp [issued, Instr.op])

theorem State.Inv.issued {i : Instr} {s : State} (inv : s.Inv) (fits : ¬ PastTop i s) : (issued i s).Inv :=
  .mk' (fun _ => rfl) inv.errCode inv.infoFits inv.memWf fun _ => running_issued fits

/-- A B that some LEN takes past 2^32 is at least 2. -/
theorem two_le_of_pastTop {i : Instr} {s : State} (past : PastTop i s) : 2 ≤ s.b.toNat := by
  obtain ⟨-, -, beyond⟩ := past
  have inside := s.len.isLt
  omega

/-- While the low half of the accumulator is folded the high half is 0 (R161). -/
theorem accAfter_lt {s : State} (byte : Byte) (op : s.latch.op = 1) : (accAfter byte s).toNat < 2 ^ 16 := by
  rw [accAfter, if_pos op, crc16Update, BitVec.toNat_setWidth_of_le (by decide)]
  exact BitVec.isLt _

/-- The index after a byte step. -/
theorem toNat_k_succ {s : State} (below : s.k.toNat < s.latch.len.toNat) : (s.k + 1).toNat = s.k.toNat + 1 := by
  have inside := s.latch.len.isLt
  rw [BitVec.toNat_add]
  exact Nat.mod_eq_of_lt (by change s.k.toNat + 1 < 2 ^ 33; omega)

/-- A byte step moves a running command on by one byte. -/
theorem State.Running.foldByte {s : State} (running : s.Running) (enabled : byteStepEnabled s = true) (addr : Word) :
    (foldByte addr s).Running := by
  obtain ⟨-, -, buffer, below⟩ := (byteStepEnabled_iff s).1 enabled
  exact { running with
    index := (toNat_k_succ below).trans_le below
    noIndex := fun absent => absurd (absent.symm.trans buffer) Bool.false_ne_true
    acc16 := fun op => accAfter_lt (s := s) _ op }

theorem State.Inv.foldByte {s : State} (inv : s.Inv) (enabled : byteStepEnabled s = true) (addr : Word) :
    (foldByte addr s).Inv :=
  { inv with running := fun busy => (inv.running busy).foldByte enabled addr }

/-- A MEM_FAULT records an address that is not Readable, and ends the command; a completion ends it too. -/
theorem State.Inv.engineStep {s t : State} (inv : s.Inv) (acts : engineStep s = .next t) : t.Inv := by
  rcases engineStep_cases acts with ⟨-, rfl⟩ | ⟨enabled, addr, -, ⟨-, rfl⟩ | ⟨unreadable, rfl⟩⟩ | ⟨-, -, r, -, rfl⟩
  · exact inv
  · exact inv.foldByte enabled addr
  · exact (inv.withError (code := .memFault) (by decide) unreadable).idle rfl rfl rfl rfl rfl rfl
  · exact inv.idle rfl rfl rfl rfl rfl rfl

/-- Clearing DONE. -/
theorem State.Inv.clearDone {s : State} (inv : s.Inv) : { s with done := false }.Inv :=
  { inv with busyDone := fun _ => rfl, running := fun busy => { inv.running busy with } }

theorem State.Inv.exec {i : Instr} {s t : State} (inv : s.Inv) (write : exec i s = .next t) : t.Inv := by
  rcases exec_cases i s with ⟨-, outcome⟩ | ⟨-, past, outcome⟩ | ⟨-, fits, outcome⟩
  all_goals
    rw [outcome] at write
    obtain rfl := Host.Outcome.next.inj write
  case inl => exact inv.busyWrite (by decide)
  case inr.inl => exact inv.clearDone.withError (code := .range) (by decide) (two_le_of_pastTop past)
  case inr.inr => exact inv.issued fits

theorem State.Inv.writeCmd {v : Word} {s t : State} (inv : s.Inv) (write : writeCmd v s = .next t) : t.Inv := by
  rcases writeCmd_cases write with ⟨-, outcome⟩ | ⟨-, rejected, outcome⟩ | ⟨-, i, -, outcome⟩
  · obtain rfl := Host.Outcome.next.inj outcome
    exact inv.busyWrite (by decide)
  · obtain rfl := Host.Outcome.next.inj outcome
    exact inv.clearDone.withError (code := .illegalOp) (by decide) rejected
  · exact inv.exec outcome.symm

theorem State.Inv.writeReg {r : Reg} {v : Word} {s t : State} (inv : s.Inv) (write : writeReg r v s = .next t) :
    t.Inv := by
  rcases writeReg_cases r v s with ⟨-, outcome⟩ | ⟨-, operand, outcome⟩ |
    ⟨idle, ⟨-, outcome⟩ | ⟨-, outcome⟩ | ⟨-, outcome⟩⟩ | ⟨-, -, outcome⟩ | ⟨-, -, -, -, -, outcome⟩
  all_goals rw [outcome] at write
  case inl => exact inv.writeCmd write
  all_goals obtain rfl := Host.Outcome.next.inj write
  case inr.inl => exact inv.busyWrite (by rcases operand with rfl | rfl | rfl <;> decide)
  case inr.inr.inl.inl | inr.inr.inl.inr.inl | inr.inr.inl.inr.inr => exact inv.idle idle rfl rfl rfl rfl rfl
  case inr.inr.inr.inl => exact inv.clearError
  case inr.inr.inr.inr => exact inv

/-- Every event keeps the invariant, each by the lemma on its effect. -/
theorem State.Inv.step {s t : State} (inv : s.Inv) (next : step s = .next t) : t.Inv := by
  have without (rest : List Event) : { s with pending := rest }.Inv := inv.outside rest s.history s.resets
  rcases step_cases next with ⟨-, acts⟩ | ⟨e, rest, -, ⟨_, _, r, -, -, rfl⟩ | ⟨_, _, v, r, -, -, write⟩ | ⟨-, acts⟩ |
    ⟨-, rfl⟩ | ⟨addr, v, -, rfl⟩⟩
  · exact inv.engineStep acts
  · exact inv.outside rest _ s.resets
  · exact (without rest).writeReg write
  · exact (without rest).engineStep acts
  · exact (without rest).resetEvent
  · exact (without rest).dataWrite addr v

/-- Settles O46: `State.Inv.step` is the statement. -/
theorem stepKeepsTheInvariant : Obligations.StepKeepsTheInvariant := by
  unfold Obligations.StepKeepsTheInvariant
  exact fun _ _ => State.Inv.step

/-- Settles O45: after reset no error is recorded and nothing runs, and the registers hold 0. -/
theorem resetMeetsTheInvariants : Obligations.ResetMeetsTheInvariants := by
  unfold Obligations.ResetMeetsTheInvariants
  refine ⟨fun p m wf => ⟨?_, fun busy => absurd busy Bool.false_ne_true, rfl, fun r named => ?_⟩, rfl⟩
  · exact .of_no_error (fun _ => rfl) rfl rfl rfl wf fun busy => absurd busy Bool.false_ne_true
  · have status : statusWord (State.resetWith p m) = 0 := statusWord_eq_zero rfl rfl rfl rfl
    cases r
    case config | poly16 | poly32 => exact absurd named (by decide)
    case status => exact status
    all_goals rfl

/-! ## Runs that nothing stops (60_exceptions.md rules R150 and R164) -/

/-- A host write to a register always answers a next state: no operand and no word stops the block. -/
theorem exists_writeReg_next (r : Reg) (v : Word) (s : State) : ∃ t, writeReg r v s = .next t := by
  rcases writeReg_cases r v s with ⟨-, outcome⟩ | ⟨-, -, outcome⟩ |
    ⟨-, ⟨-, outcome⟩ | ⟨-, outcome⟩ | ⟨-, outcome⟩⟩ | ⟨-, -, outcome⟩ | ⟨-, -, -, -, -, outcome⟩
  case inl =>
    rw [outcome]
    rcases writeCmd_cases (v := v) (s := s) rfl with ⟨-, outcome⟩ | ⟨-, -, outcome⟩ | ⟨-, i, -, outcome⟩
    · exact ⟨_, outcome⟩
    · exact ⟨_, outcome⟩
    · rcases exec_cases i s with ⟨-, done⟩ | ⟨-, -, done⟩ | ⟨-, -, done⟩ <;> exact ⟨_, outcome.trans done⟩
  all_goals exact ⟨_, outcome⟩

/-- An access that the interface gives a meaning reaches a register. -/
theorem exists_access_ok {p : Params} {addr : Word} {w : Width} (allowed : (access p addr w).toBool = true) :
    ∃ r, access p addr w = .ok r := by
  cases reached : access p addr w with
  | error why => rw [reached] at allowed; cases allowed
  | ok r => exact ⟨r, rfl⟩

/-- An event that the interface gives a meaning answers a next state. -/
theorem exists_perform_next {s : State} {e : Event} (inv : s.Inv) (allowed : eventAllowed s.params e = true) :
    ∃ t, perform e s = .next t := by
  cases e with
  | hostWrite addr w v =>
    obtain ⟨r, reached⟩ := exists_access_ok allowed
    rw [perform, hostWrite, reached]
    exact exists_writeReg_next r v s
  | hostRead addr w =>
    obtain ⟨r, reached⟩ := exists_access_ok allowed
    rw [perform, hostRead, reached]
    exact ⟨_, rfl⟩
  | engine => exact engineStep_next inv
  | reset | dataWrite addr v => exact ⟨_, rfl⟩

/-- A step takes at most its own event off the events to come. -/
theorem step_pending {s t : State} (next : step s = .next t) :
    t.pending = s.pending ∨ ∃ e, s.pending = e :: t.pending := by
  rcases step_changes next with ⟨-, noEvent | event⟩ | ⟨event, -⟩ | ⟨_, _, event, -⟩ | ⟨⟨_, event, -⟩, -⟩ |
    ⟨-, _, -, _, event, -⟩ | ⟨-, _, event, -⟩ | ⟨-, _, _, event, -⟩ |
    ⟨-, _, event, -⟩ | ⟨-, _, event, -⟩ | ⟨-, _, event, -⟩ | ⟨_, -, event, -⟩
  case inl.inl =>
    rw [step_of_pending_nil noEvent] at next
    exact .inl (engineStep_pending next)
  all_goals exact .inr ⟨_, event⟩

/-- Every step keeps a schedule of accesses that the interface gives a meaning. -/
theorem State.AllowedSchedule.step {s t : State} (allowed : s.AllowedSchedule) (next : step s = .next t) :
    t.AllowedSchedule := by
  intro e coming
  rw [step_params next]
  apply allowed e
  rcases step_pending next with same | ⟨_, event⟩
  · exact same ▸ coming
  · exact event ▸ List.mem_cons_of_mem _ coming

/-- Under such a schedule a step from a state that meets the invariant answers a next state. -/
theorem exists_step_next {s : State} (inv : s.Inv) (allowed : s.AllowedSchedule) : ∃ t, step s = .next t := by
  cases events : s.pending with
  | nil =>
    rw [step_of_pending_nil events]
    exact engineStep_next inv
  | cons e rest =>
    rw [step, events]
    exact exists_perform_next (inv.outside rest s.history s.resets) (allowed e (events ▸ List.mem_cons_self))

/-- Settles O48: the invariant and the schedule are kept by every step, and with them a step answers a next state. -/
theorem allowedRunsAreSafe : Obligations.AllowedRunsAreSafe := by
  unfold Obligations.AllowedRunsAreSafe
  intro s inv allowed n
  refine run_safe (fun u => u.Inv ∧ u.AllowedSchedule) ?_ ?_ n s ⟨inv, allowed⟩
  · rintro u ⟨inv, allowed⟩
    exact exists_step_next inv allowed
  · rintro u t ⟨inv, allowed⟩ next
    exact ⟨inv.step next, allowed.step next⟩

/-- Left to the engine, a running command ends or reads its next byte. -/
theorem exists_step_ends_or_reads {s : State} (inv : s.Inv) (busy : s.busy = true) (alone : s.pending = []) :
    ∃ t, step s = .next t ∧ (t.busy = false ∨
      byteStepEnabled s = true ∧ t.busy = true ∧ t.pending = [] ∧ t.latch = s.latch ∧ t.k = s.k + 1) := by
  obtain ⟨t, acts⟩ := engineStep_next inv
  refine ⟨t, (step_of_pending_nil alone).trans acts, ?_⟩
  rcases engineStep_cases acts with ⟨idle, -⟩ | ⟨enabled, addr, -, ⟨-, rfl⟩ | ⟨-, rfl⟩⟩ | ⟨-, -, r, -, rfl⟩
  · exact absurd (idle.symm.trans busy) Bool.false_ne_true
  · exact .inr ⟨enabled, busy, alone, rfl, rfl⟩
  · exact .inl rfl
  · exact .inl rfl

/-- So it ends within one step for each byte still to read and one more. -/
theorem exists_run_ends (left : Nat) : ∀ {s : State}, s.Inv → s.busy = true → s.pending = [] →
    s.latch.len.toNat - s.k.toNat ≤ left →
    ∃ n t, n ≤ left + 1 ∧ Host.Core.run Sys2Proof.core n s = .next t ∧ State.busy t = false := by
  induction left with
  | zero =>
    intro s inv busy alone bound
    obtain ⟨t, next, ended | ⟨enabled, -⟩⟩ := exists_step_ends_or_reads inv busy alone
    · exact ⟨1, t, Nat.le_refl 1, run_next next rfl, ended⟩
    · obtain ⟨-, -, -, below⟩ := (byteStepEnabled_iff s).1 enabled
      omega
  | succ left ih =>
    intro s inv busy alone bound
    obtain ⟨t, next, ended | ⟨enabled, busy', alone', latch, k⟩⟩ := exists_step_ends_or_reads inv busy alone
    · exact ⟨1, t, by omega, run_next next rfl, ended⟩
    · obtain ⟨-, -, -, below⟩ := (byteStepEnabled_iff s).1 enabled
      have index := toNat_k_succ below
      obtain ⟨n, u, within, run, ended⟩ := ih (inv.step next) busy' alone' (by rw [latch, k, index]; omega)
      exact ⟨n + 1, u, by omega, run_next next run, ended⟩

/-- Settles O16: the run of `exists_run_ends`, which is one completion step where there is no buffer. -/
theorem everyIssuedCommandEnds : Obligations.EveryIssuedCommandEnds := by
  unfold Obligations.EveryIssuedCommandEnds
  intro s inv busy alone
  cases buffer : s.latch.bufp with
  | true =>
    obtain ⟨n, t, within, run, ended⟩ := exists_run_ends _ inv busy alone (Nat.le_refl _)
    exact ⟨n, t, within, run, ended, fun absent => absurd absent.symm Bool.false_ne_true⟩
  | false =>
    obtain ⟨t, next, ended | ⟨enabled, -⟩⟩ := exists_step_ends_or_reads inv busy alone
    · exact ⟨1, t, Nat.le_add_left 1 _, run_next next rfl, ended, fun _ => rfl⟩
    · obtain ⟨-, -, present, -⟩ := (byteStepEnabled_iff s).1 enabled
      exact absurd (buffer.symm.trans present) Bool.false_ne_true

end Sys2Proof.Machine

/-! ## What a running CRC has read and folded (20_memory.md rules R51, R54 and R67, 40_crc.md rules R103 and R104) -/

namespace Sys2Proof.Machine

theorem writeCmd_history {v : Word} {s t : State} (write : writeCmd v s = .next t) : t.history = s.history := by
  rcases writeCmd_cases write with ⟨-, outcome⟩ | ⟨-, -, outcome⟩ | ⟨-, i, -, command⟩
  · obtain rfl := Host.Outcome.next.inj outcome
    rfl
  · obtain rfl := Host.Outcome.next.inj outcome
    rfl
  · obtain ⟨-, -, -, -, -, -, record, -⟩ := commandWriteFrame i s t command.symm
    exact record

/-- A host write records nothing. -/
theorem writeReg_history {r : Reg} {v : Word} {s t : State} (write : writeReg r v s = .next t) :
    t.history = s.history := by
  rcases writeReg_cases r v s with ⟨-, outcome⟩ | ⟨-, -, outcome⟩ |
    ⟨-, ⟨-, outcome⟩ | ⟨-, outcome⟩ | ⟨-, outcome⟩⟩ | ⟨-, -, outcome⟩ | ⟨-, -, -, -, -, outcome⟩
  all_goals rw [outcome] at write
  case inl => exact writeCmd_history write
  all_goals
    obtain rfl := Host.Outcome.next.inj write
    rfl

/-- Only the engine adds to the engine's reads. -/
theorem step_engineReads {s t : State} (next : step s = .next t) :
    engineStep { s with pending := t.pending } = .next t ∨ engineReads t.history = engineReads s.history := by
  rcases step_cases next with ⟨-, acts⟩ | ⟨e, rest, -, ⟨_, _, r, -, -, rfl⟩ | ⟨_, _, v, r, -, -, write⟩ | ⟨-, acts⟩ |
    ⟨-, rfl⟩ | ⟨addr, v, -, rfl⟩⟩
  · exact .inl ((engineStep_pending acts).symm ▸ acts)
  · exact .inr rfl
  · have record := writeReg_history write
    exact .inr (congrArg engineReads record)
  · exact .inl ((engineStep_pending acts).symm ▸ acts)
  · exact .inr rfl
  · exact .inr rfl

/-- The fold goes on by one byte as the engine's update of `acc` does (R161). -/
theorem accAfter_of_folded {s : State} {bytes : List Byte} (folded : s.acc = foldedAcc s bytes) (byte : Byte) :
    accAfter byte s = foldedAcc s (bytes ++ [byte]) := by
  unfold accAfter foldedAcc
  unfold foldedAcc at folded
  split
  · rename_i op
    rw [if_pos op] at folded
    rw [crc16Update, folded, BitVec.setWidth_setWidth_of_le _ (by decide), BitVec.setWidth_eq, crcSeq16, crcSeq16,
      List.foldl_append]
    rfl
  · rename_i op
    rw [if_neg op] at folded
    rw [crc32Update, folded, crcSeq32, crcSeq32, List.foldl_append]
    rfl

/-- A command that was just issued has read nothing, and its accumulator is that of no bytes (R160). -/
theorem issuedAcc_eq_foldedAcc_nil {i : Instr} (s : State) (crc : i.op = 1 ∨ i.op = 2) :
    issuedAcc i s = foldedAcc (issued i s) [] := by
  cases i with
  | crc16 bufp => exact (lowHalf_eq s.a).symm
  | crc32 bufp => rfl
  | gcd | grayenc | graydec | isqrt => exact absurd crc (by decide)

theorem crcLatched_iff (s : State) : crcLatched s = true ↔ s.latch.op = 1 ∨ s.latch.op = 2 := by
  simp [crcLatched]

/-- What a running CRC has read and folded does not depend on the rest of the state. -/
theorem State.FoldsReads.congr {s t : State} (folds : s.FoldsReads) (busy : t.busy = s.busy)
    (latch : t.latch = s.latch) (params : t.params = s.params) (k : t.k = s.k) (acc : t.acc = s.acc)
    (reads : engineReads t.history = engineReads s.history) : t.FoldsReads := by
  have same : t.commandReads = s.commandReads := by rw [State.commandReads, State.commandReads, reads, k]
  unfold State.FoldsReads foldedAcc crcLatched
  rw [busy, same, latch, params, k, acc]
  exact folds

/-- While BUSY = 0 nothing is asked. -/
theorem State.FoldsReads.of_idle {s : State} (idle : s.busy = false) : s.FoldsReads :=
  fun busy => absurd (idle.symm.trans busy) Bool.false_ne_true

theorem State.FoldsReads.issued (i : Instr) (s : State) : (issued i s).FoldsReads := fun _ crc =>
  ⟨rfl, issuedAcc_eq_foldedAcc_nil s ((crcLatched_iff (Machine.issued i s)).1 crc)⟩

/-- A byte step adds its read to those of the running command. -/
theorem commandReads_foldByte {s : State} (below : s.k.toNat < s.latch.len.toNat) (addr : Word) :
    (foldByte addr s).commandReads = s.commandReads ++ [(addr, s.mem.read addr.toNat)] := by
  rw [State.commandReads, foldByte_k, toNat_k_succ below]
  exact List.reverse_cons

/-- A byte step reads the next address and folds the byte read. -/
theorem State.FoldsReads.foldByte {s : State} (folds : s.FoldsReads) (enabled : byteStepEnabled s = true) {addr : Word}
    (address : addr.toNat = bufferAddress s) : (foldByte addr s).FoldsReads := by
  obtain ⟨busy, crc, -, below⟩ := (byteStepEnabled_iff s).1 enabled
  obtain ⟨addresses, acc⟩ := folds busy ((crcLatched_iff s).2 crc)
  intro _ _
  rw [commandReads_foldByte below]
  constructor
  · rw [foldByte_k, toNat_k_succ below, List.range_succ, List.map_append, List.map_append, addresses, foldByte_latch]
    rw [List.map_singleton, List.map_singleton, ofNat_bufferAddress address]
  · rw [foldByte_acc, accAfter_of_folded acc, List.map_append]
    rfl

theorem State.FoldsReads.engineStep {s t : State} (folds : s.FoldsReads) (acts : engineStep s = .next t) :
    t.FoldsReads := by
  rcases engineStep_cases acts with ⟨-, rfl⟩ | ⟨enabled, addr, address, ⟨-, rfl⟩ | ⟨-, rfl⟩⟩ | ⟨-, -, r, -, rfl⟩
  · exact folds
  · exact folds.foldByte enabled address
  · exact .of_idle rfl
  · exact .of_idle rfl

/-- Settles O47: a byte step adds the read it folds, the issue starts with none, and every other step of a running command
leaves the latch, `k`, `acc` and the engine's reads alone. -/
theorem stepKeepsTheFoldOfTheReads : Obligations.StepKeepsTheFoldOfTheReads := by
  unfold Obligations.StepKeepsTheFoldOfTheReads
  intro s t folds next
  have without : { s with pending := t.pending }.FoldsReads := folds
  rcases step_engineReads next with acts | reads
  · exact without.engineStep acts
  rcases step_changes next with ⟨acts, -⟩ | ⟨-, effect⟩ | ⟨_, _, -, effect⟩ | ⟨-, _, effect⟩ | ⟨-, _, -, _, -, effect⟩ |
    ⟨idle, _, -, _, _, effect⟩ | ⟨-, _, i, -, -, effect⟩ | ⟨-, _, -, effect⟩ | ⟨-, _, -, effect⟩ | ⟨-, _, -, effect⟩ |
    ⟨_, -, -, effect⟩
  case inr.inl => exact without.engineStep acts
  case inr.inr.inl => exact .of_idle ((congrArg State.busy effect).trans rfl)
  case inr.inr.inr.inr.inr.inr.inr.inl => rw [effect]; exact .issued i _
  all_goals
    exact folds.congr ((congrArg State.busy effect).trans rfl) ((congrArg State.latch effect).trans rfl)
      ((congrArg State.params effect).trans rfl) ((congrArg State.k effect).trans rfl)
      ((congrArg State.acc effect).trans rfl) reads

/-- The result of a CRC is its accumulator, the fold of the bytes: CRC16's has its upper half 0 (R162). -/
theorem commandResult_of_folded {s : State} {bytes : List Byte} (crc : s.latch.op = 1 ∨ s.latch.op = 2)
    (folded : s.acc = foldedAcc s bytes) : commandResult s = some (foldedAcc s bytes) := by
  obtain ⟨crc16, crc32, -⟩ := commandResult_of_op s
  rw [← folded]
  rcases crc with op | op
  · rw [crc16 op, lowHalf_of_lt]
    rw [folded, foldedAcc, if_pos op, BitVec.toNat_setWidth_of_le (by decide)]
    exact BitVec.isLt _
  · exact crc32 op

/-- Settles O24: a step that sets DONE is the completion, which comes when all lat_len bytes are read. -/
theorem completedCrcIsTheFoldOfTheBytesRead : Obligations.CompletedCrcIsTheFoldOfTheBytesRead := by
  unfold Obligations.CompletedCrcIsTheFoldOfTheBytesRead
  intro s t inv folds busy crc buffer acts done
  have notDone : ¬ s.done = true := by simp [inv.busyDone busy]
  obtain ⟨addresses, folded⟩ := folds busy crc
  rw [crcLatched_iff] at crc
  rcases engineStep_cases acts with ⟨idle, -⟩ | ⟨-, addr, -, ⟨-, rfl⟩ | ⟨-, rfl⟩⟩ | ⟨-, disabled, r, result, rfl⟩
  · exact absurd (idle.symm.trans busy) Bool.false_ne_true
  · exact absurd done notDone
  · exact absurd done Bool.false_ne_true
  · have finished : ¬ s.k.toNat < s.latch.len.toNat := fun below =>
      absurd ((byteStepEnabled_iff s).2 ⟨busy, crc, buffer, below⟩) (by simp [disabled])
    have all : s.k.toNat = s.latch.len.toNat := Nat.le_antisymm (inv.running busy).index (Nat.not_lt.1 finished)
    rw [commandResult_of_folded crc folded] at result
    exact ⟨all ▸ addresses, (Option.some.inj result).symm⟩

end Sys2Proof.Machine

/-! ## A CRC command left to the engine (40_crc.md §3, 20_memory.md rules R51 to R56) -/

namespace Sys2Proof.Machine

/-- The first `n` bytes of a buffer at `b`, in ascending address order (R54). -/
def firstBytes (m : Memory) (b : Word) (n : Nat) : List Byte := (List.range n).map fun k => m.read (b.toNat + k)

theorem firstBytes_succ (m : Memory) (b : Word) (n : Nat) :
    firstBytes m b (n + 1) = firstBytes m b n ++ [m.read (b.toNat + n)] := by
  rw [firstBytes, List.range_succ, List.map_append, firstBytes, List.map_singleton]

/-- The engine's updates of the accumulator, byte after byte (R161). -/
def accAfterBytes (s : State) (acc : Word) (bytes : List Byte) : Word :=
  bytes.foldl (fun acc byte => accAfter byte { s with acc := acc }) acc

/-- From the accumulator of no bytes they are the fold of the bytes. -/
theorem accAfterBytes_eq_foldedAcc (s : State) (bytes : List Byte) :
    accAfterBytes s (foldedAcc s []) bytes = foldedAcc s bytes := by
  induction bytes using List.reverseRecOn with
  | nil => rfl
  | append_singleton bytes byte ih =>
    rw [accAfterBytes] at ih ⊢
    rw [List.foldl_append, ih]
    exact accAfter_of_folded (s := { s with acc := foldedAcc s bytes }) rfl byte

theorem bytesToRead_eq (i : Instr) (s : State) : bytesToRead i s = if i.bufp then s.len.toNat else 0 := by
  cases i <;> rfl

/-- A command that has a byte to read has a buffer, and the byte lies in it. -/
theorem lt_bytesToRead {i : Instr} {s : State} {j : Nat} (below : j < bytesToRead i s) :
    i.bufp = true ∧ j < s.len.toNat := by
  rw [bytesToRead_eq] at below
  split at below
  · exact ⟨by assumption, below⟩
  · exact absurd below (Nat.not_lt_zero j)

/-- A buffer with a byte in it that does not pass the top ends at 2^32 or below (R56). -/
theorem buffer_le_of_not_pastTop {i : Instr} {s : State} {j : Nat} (fits : ¬ PastTop i s) (below : j < bytesToRead i s) :
    s.b.toNat + s.len.toNat ≤ 2 ^ 32 := by
  obtain ⟨buffer, inside⟩ := lt_bytesToRead below
  rcases (not_pastTop_iff i s).1 fits with absent | empty | bound
  · exact absurd (absent.symm.trans buffer) Bool.false_ne_true
  · rw [empty] at inside
    exact absurd inside (Nat.not_lt_zero j)
  · exact bound

/-- The state of a CRC command issued in `s` once it has read its first `n` bytes. -/
def afterReads (i : Instr) (s : State) (n : Nat) : State :=
  { issued i s with
    acc := foldedAcc (issued i s) (firstBytes s.mem s.b n)
    k := BitVec.ofNat 33 n
    history := readRecords s.mem s.b n ++ s.history }

/-- Before it has read a byte that is the state after its issue. -/
theorem afterReads_zero {i : Instr} (s : State) (crc : i.op = 1 ∨ i.op = 2) : afterReads i s 0 = issued i s := by
  have acc : foldedAcc (issued i s) [] = (issued i s).acc := (issuedAcc_eq_foldedAcc_nil s crc).symm
  change { issued i s with acc := foldedAcc (issued i s) [] } = issued i s
  rw [acc]

theorem toNat_k_afterReads {i : Instr} {s : State} {n : Nat} (within : n ≤ bytesToRead i s) :
    (afterReads i s n).k.toNat = n := by
  have bound : bytesToRead i s ≤ s.len.toNat := by rw [bytesToRead_eq]; split <;> omega
  have inside := s.len.isLt
  exact (BitVec.toNat_ofNat ..).trans (Nat.mod_eq_of_lt (by omega))

/-- Issued by the write of its word to an idle block and left to the engine, a CRC command reads its first `n` bytes in
`n` steps where they are Readable. -/
theorem run_issue_and_reads {i : Instr} {s : State} {n : Nat} (crc : i.op = 1 ∨ i.op = 2) (idle : s.busy = false)
    (alone : s.pending = []) (fits : ¬ PastTop i s) (within : n ≤ bytesToRead i s)
    (readable : ∀ k < n, isReadable s.params (BitVec.ofNat 32 (s.b.toNat + k)) = true) :
    Host.Core.run Sys2Proof.core (n + 1) (s.withEvent (cmdEvent s.params (encode i))) = .next (afterReads i s n) := by
  refine run_next (step_cmd_issue idle fits) ?_
  rcases Nat.eq_zero_or_pos n with rfl | positive
  · rw [afterReads_zero s crc]
    rfl
  · have below : n - 1 < bytesToRead i s := by omega
    obtain ⟨buffer, inside⟩ := lt_bytesToRead below
    have bound := buffer_le_of_not_pastTop fits below
    have start : (issued i s).k.toNat = 0 := rfl
    have reads := run_byteSteps [] n (s := issued i s) (.inr ⟨alone, rfl⟩) rfl crc buffer
      (by rw [start]; change 0 + n ≤ s.len.toNat; omega) (by rw [start]; change s.b.toNat + 0 + n ≤ 2 ^ 32; omega)
      readable
    have acc : accAfterBytes (issued i s) (issued i s).acc (firstBytes s.mem s.b n) =
        foldedAcc (issued i s) (firstBytes s.mem s.b n) := by
      rw [← accAfterBytes_eq_foldedAcc, ← issuedAcc_eq_foldedAcc_nil s crc]
      rfl
    have index : (issued i s).k + BitVec.ofNat 33 n = BitVec.ofNat 33 n := BitVec.zero_add _
    have noEvent : (issued i s).pending = [] := alone
    rw [reads, afterReads, ← acc]
    simp only [start, Nat.add_zero, index, noEvent]
    rfl

/-- With all its bytes read the engine completes a CRC command with their fold. -/
theorem engineStep_afterReads_all {i : Instr} (s : State) (crc : i.op = 1 ∨ i.op = 2) :
    engineStep (afterReads i s (bytesToRead i s)) =
      .next (completed (foldedAcc (issued i s) (firstBytes s.mem s.b (bytesToRead i s)))
        (afterReads i s (bytesToRead i s))) := by
  refine engineStep_completion rfl (byteStepEnabled_eq_false ?_) (commandResult_of_folded crc rfl)
  right
  cases buffer : i.bufp with
  | false => exact .inl buffer
  | true =>
    have all : bytesToRead i s = s.len.toNat := by rw [bytesToRead_eq, if_pos buffer]
    exact .inr (by rw [toNat_k_afterReads (Nat.le_refl _), all]; exact Nat.le_refl _)

/-- That fold is the whole-command function of each width (40_crc.md §3). -/
theorem foldedAcc_issued_all (i : Instr) (s : State) :
    (i.op = 1 → foldedAcc (issued i s) (firstBytes s.mem s.b (bytesToRead i s)) =
      (crc16 s.params (s.a.setWidth 16) i.bufp s.b s.len s.mem).setWidth 32) ∧
    (i.op = 2 → foldedAcc (issued i s) (firstBytes s.mem s.b (bytesToRead i s)) =
      crc32 s.params s.a i.bufp s.b s.len s.mem) := by
  cases i with
  | crc16 bufp => exact ⟨fun _ => by cases bufp <;> rfl, fun op => absurd op (by simp [Instr.op])⟩
  | crc32 bufp => exact ⟨fun op => absurd op (by simp [Instr.op]), fun _ => by cases bufp <;> rfl⟩
  | gcd | grayenc | graydec | isqrt => exact ⟨fun op => absurd op (by decide), fun op => absurd op (by decide)⟩

/-- Settles O21: the command is issued, reads its buffer, and is completed with the fold of the bytes. -/
theorem crcCommandComputesItsBuffer : Obligations.CrcCommandComputesItsBuffer := by
  unfold Obligations.CrcCommandComputesItsBuffer
  intro s i crc idle alone fits readable
  have reads := run_issue_and_reads crc idle alone fits (Nat.le_refl _) readable
  have completes := (step_of_pending_nil (s := afterReads i s (bytesToRead i s)) alone).trans
    (engineStep_afterReads_all s crc)
  obtain ⟨value16, value32⟩ := foldedAcc_issued_all i s
  exact ⟨_, (run_add 1 reads).trans (run_next completes rfl), rfl, rfl, rfl, rfl, rfl, value16, value32,
    rfl, rfl, rfl, rfl, rfl⟩

/-- Settles O22: the command reads the bytes below the unreadable one, whose byte step is a MEM_FAULT. -/
theorem crcStopsAtTheLowestUnreadableByte : Obligations.CrcStopsAtTheLowestUnreadableByte := by
  unfold Obligations.CrcStopsAtTheLowestUnreadableByte
  intro s i j crc idle alone fits below readable unreadable
  obtain ⟨buffer, inside⟩ := lt_bytesToRead below
  have bound := buffer_le_of_not_pastTop fits below
  have index := toNat_k_afterReads (i := i) (Nat.le_of_lt below)
  have reads := run_issue_and_reads crc idle alone fits (Nat.le_of_lt below) readable
  have enabled : byteStepEnabled (afterReads i s j) = true :=
    (byteStepEnabled_iff _).2 ⟨rfl, crc, buffer, by rw [index]; exact inside⟩
  have address : (BitVec.ofNat 32 (s.b.toNat + j)).toNat = s.b.toNat + (afterReads i s j).k.toNat := by
    rw [index, BitVec.toNat_ofNat, Nat.mod_eq_of_lt (by omega)]
  have faults : step (afterReads i s j) = .next { (afterReads i s j).withError .memFault (BitVec.ofNat 32 (s.b.toNat + j))
      with busy := false, done := false } := by
    have refused : ¬ isReadable (afterReads i s j).params (BitVec.ofNat 32 (s.b.toNat + j)) = true :=
      fun given => Bool.false_ne_true (unreadable.symm.trans given)
    rw [step_of_pending_nil (s := afterReads i s j) alone, engineStep_byte enabled address, if_neg refused]
  refine ⟨_, (run_add 1 reads).trans (run_next faults rfl), rfl, rfl, rfl, fun noError => ?_, fun erred => ?_,
    rfl, rfl, rfl⟩
  · exact ⟨if_neg (by simp [afterReads, issued, noError]), if_neg (by simp [afterReads, issued, noError])⟩
  · exact ⟨if_pos erred, if_pos erred⟩

/-! ## The pseudo-instructions (30_encoding.md rule R80) -/

/-- A command as it runs once it is issued in `s`, with the result `r`. -/
def commandRun (i : Instr) (s : State) (r : Word) : CommandRun where
  latch := (issued i s).latch
  params := s.params
  mem := s.mem
  a := s.a
  bytes := bytesToRead i s
  accAt n := accAfterBytes (issued i s) (issuedAcc i s) (firstBytes s.mem s.b n)
  result := r

/-- An operation that has a buffer is a CRC. -/
theorem crc_of_bufp {i : Instr} (buffer : i.bufp = true) : i.op = 1 ∨ i.op = 2 := by
  rcases (bufp_eq_true_iff i).1 buffer with rfl | rfl
  · exact .inl rfl
  · exact .inr rfl

/-- The result depends on the latch and the accumulator alone (R162). -/
theorem commandResult_congr {s t : State} (latch : s.latch = t.latch) (acc : s.acc = t.acc) :
    commandResult s = commandResult t := by
  unfold commandResult crc16Result crc32Result gcdResult grayencResult graydecResult isqrtResult
  rw [latch, acc]

/-- The update of the accumulator depends on the latch, the parameters and the accumulator alone (R161). -/
theorem accAfter_congr {s t : State} (byte : Byte) (latch : s.latch = t.latch) (params : s.params = t.params)
    (acc : s.acc = t.acc) : accAfter byte s = accAfter byte t := by
  rw [accAfter, accAfter, latch, params, acc]

/-- The description fits the engine where the buffer fits and is Readable. -/
theorem commandRun_ok {i : Instr} {s : State} {r : Word} (fits : ¬ PastTop i s) (readable : BufferReadable i s)
    (result : commandResult { issued i s with acc := (commandRun i s r).accAt (bytesToRead i s) } = some r) :
    (commandRun i s r).Ok where
  enabled j below := by
    obtain ⟨buffer, inside⟩ := lt_bytesToRead below
    have bound := buffer_le_of_not_pastTop fits below
    exact ⟨crc_of_bufp buffer, buffer, inside, by change s.b.toNat + j < 2 ^ 32; omega, readable j below⟩
  bound := by
    have inside := s.len.isLt
    change bytesToRead i s < 2 ^ 32
    rw [bytesToRead_eq]
    split <;> omega
  fold j below t params latch acc := by
    change accAfter (s.mem.read (s.b.toNat + j)) t = accAfterBytes _ _ (firstBytes s.mem s.b (j + 1))
    rw [firstBytes_succ, accAfterBytes, List.foldl_append]
    exact accAfter_congr _ latch params acc
  last := by
    right
    cases buffer : i.bufp with
    | false => exact .inl buffer
    | true => exact .inr (by change s.len.toNat ≤ bytesToRead i s; rw [bytesToRead_eq, if_pos buffer])
  value t latch acc := (commandResult_congr (t := { issued i s with acc := _ }) latch acc).trans result

/-- What R80 says of the events `es` of a pseudo-instruction with `bytes` bytes to read, from the block `s`: the reads of
STATUS before the end show a running command, the last one shows its end, and RESULT reads `r`. -/
def PollsThenReads (s : State) (front : List Nat) (n : Nat) (es : List Event) (bytes : Nat) (u r : Word) : Prop :=
  front.sum ≤ bytes → bytes < front.sum + n → ∃ (t : State) (early : List Word) (last : Word),
    Host.Core.run Sys2Proof.core es.length { s with pending := es } = .next t ∧
    hostReads t.history = (s.params.base + 0x10, r) :: (s.params.base + 0x14, last) ::
      (early.map (fun w => (s.params.base + 0x14, w)) ++ hostReads s.history) ∧
    early.length = front.length ∧ (∀ w ∈ early, w.getLsbD 0 = true ∧ w.getLsbD 1 = false) ∧
    last.getLsbD 0 = false ∧ last.getLsbD 1 = true ∧
    t.result = r ∧ t.a = u ∧ t.mem = s.mem ∧ (engineReads t.history).length = bytes + (engineReads s.history).length

/-- `cmd <word> ; wait ; rd RESULT`, from an idle block. -/
theorem pollsThenReads_cmdWaitRead {i : Instr} {s : State} {r : Word} (front : List Nat) (n : Nat)
    (idle : s.busy = false) (fits : ¬ PastTop i s) (readable : BufferReadable i s)
    (result : commandResult { issued i s with acc := (commandRun i s r).accAt (bytesToRead i s) } = some r) :
    PollsThenReads s front n (cmdWaitRead s.params i (front ++ [n])) (bytesToRead i s) s.a r := by
  intro allEarly lastLate
  generalize afterwards : wait s.params (front ++ [n]) ++ [(Stmt.rd .result).event s.params] = es
  have issues : step { s with pending := cmdWaitRead s.params i (front ++ [n]) } =
      .next { issued i s with pending := es } := by
    rw [cmdWaitRead, afterwards]
    exact step_cmd_issue (s := { s with pending := es }) idle fits
  have atStart : (commandRun i s r).At 0 { issued i s with pending := es } := ⟨rfl, rfl, rfl, rfl, rfl, rfl, rfl, rfl⟩
  obtain ⟨t, early, last, run, shown⟩ :=
    CommandRun.run_wait (commandRun_ok fits readable result) front n atStart allEarly lastLate afterwards.symm
  refine ⟨t, early, last, ?_, shown⟩
  rw [show (cmdWaitRead s.params i (front ++ [n])).length = (wait s.params (front ++ [n])).length + 1 + 1 by
    simp [cmdWaitRead]]
  exact run_next issues run

/-- A `wr` of an operand register before them. -/
theorem PollsThenReads.wr {s t : State} {reg : Reg} {v : Word} {front : List Nat} {n : Nat} {es : List Event}
    {bytes : Nat} {u r : Word} (polls : PollsThenReads t front n es bytes u r)
    (write : writeReg reg v { s with pending := es } = .next { t with pending := es })
    (params : t.params = s.params) (mem : t.mem = s.mem) (history : t.history = s.history) :
    PollsThenReads s front n ((Stmt.wr reg v).event s.params :: es) bytes u r := by
  intro allEarly lastLate
  obtain ⟨w, early, last, run, shown⟩ := polls allEarly lastLate
  rw [params, mem, history] at shown
  exact ⟨w, early, last, run_next ((step_wr s reg v es).trans write) run, shown⟩

section
variable {s : State} {front : List Nat} {n : Nat} {es : List Event} {bytes : Nat} {u r : Word}

theorem PollsThenReads.wrA {v : Word} (idle : s.busy = false)
    (polls : PollsThenReads { s with a := v } front n es bytes u r) :
    PollsThenReads s front n ((Stmt.wr .a v).event s.params :: es) bytes u r :=
  polls.wr (writeReg_a_of_idle (s := { s with pending := es }) idle v) rfl rfl rfl

theorem PollsThenReads.wrB {v : Word} (idle : s.busy = false)
    (polls : PollsThenReads { s with b := v } front n es bytes u r) :
    PollsThenReads s front n ((Stmt.wr .b v).event s.params :: es) bytes u r :=
  polls.wr (writeReg_b_of_idle (s := { s with pending := es }) idle v) rfl rfl rfl

theorem PollsThenReads.wrLen {v : Word} (idle : s.busy = false)
    (polls : PollsThenReads { s with len := v } front n es bytes u r) :
    PollsThenReads s front n ((Stmt.wr .len v).event s.params :: es) bytes u r :=
  polls.wr (writeReg_len_of_idle (s := { s with pending := es }) idle v) rfl rfl rfl

end

/-- A command without a buffer has nothing to read, so it may be polled from any idle block. -/
theorem pollsThenReads_of_no_buffer {i : Instr} {s : State} {r : Word} (front : List Nat) (n : Nat)
    (idle : s.busy = false) (absent : i.bufp = false) (result : commandResult (issued i s) = some r) :
    PollsThenReads s front n (cmdWaitRead s.params i (front ++ [n])) 0 s.a r := by
  have nothing : bytesToRead i s = 0 := by rw [bytesToRead_eq, absent]; rfl
  have polls := pollsThenReads_cmdWaitRead (r := r) front n idle ((not_pastTop_iff i s).2 (.inl absent))
    (fun k below => absurd below (by omega)) (by rw [nothing]; exact result)
  rwa [nothing] at polls

/-- A CRC over a buffer that fits and is Readable. -/
theorem pollsThenReads_of_buffer {i : Instr} {s : State} {r : Word} (front : List Nat) (n : Nat) (idle : s.busy = false)
    (buffer : i.bufp = true) (fits : s.len = 0 ∨ s.b.toNat + s.len.toNat ≤ 2 ^ 32)
    (readable : ∀ k < s.len.toNat, isReadable s.params (BitVec.ofNat 32 (s.b.toNat + k)) = true)
    (value : foldedAcc (issued i s) (firstBytes s.mem s.b (bytesToRead i s)) = r) :
    PollsThenReads s front n (cmdWaitRead s.params i (front ++ [n])) s.len.toNat s.a r := by
  have crc := crc_of_bufp buffer
  have all : bytesToRead i s = s.len.toNat := by rw [bytesToRead_eq, if_pos buffer]
  have acc : (commandRun i s r).accAt (bytesToRead i s) = r := by
    rw [← value, ← accAfterBytes_eq_foldedAcc, ← issuedAcc_eq_foldedAcc_nil s crc]
    rfl
  have polls := pollsThenReads_cmdWaitRead (r := r) front n idle ((not_pastTop_iff i s).2 (.inr fits))
    (fun k below => readable k (all ▸ below))
    (by rw [acc, ← value]; exact commandResult_of_folded (s := { issued i s with acc := _ }) crc rfl)
  rwa [all] at polls

/-- Settles O57: each pseudo-instruction writes its operands to the idle block and ends as `cmdWaitRead`. -/
theorem pseudoInstructionsReadTheResult : Obligations.PseudoInstructionsReadTheResult := by
  unfold Obligations.PseudoInstructionsReadTheResult
  intro s front n idle run p polls fits
  refine ⟨fun u v => ?_, fun u => ?_, fun u => ?_, fun u => ?_, fun u len => ?_, fun u len => ?_,
    fun u buf len given => ?_, fun u buf len given => ?_⟩
  · exact PollsThenReads.wrA idle (.wrB idle (pollsThenReads_of_no_buffer (i := .gcd) front n idle rfl rfl))
  · exact PollsThenReads.wrA idle (pollsThenReads_of_no_buffer (i := .grayenc) front n idle rfl rfl)
  · exact PollsThenReads.wrA idle (pollsThenReads_of_no_buffer (i := .graydec) front n idle rfl rfl)
  · exact PollsThenReads.wrA idle (pollsThenReads_of_no_buffer (i := .isqrt) front n idle rfl rfl)
  · exact PollsThenReads.wrA idle (pollsThenReads_of_no_buffer (i := .crc16 false) front n idle rfl
      (commandResult_issued_of_crc { s with a := u } (.inl rfl)))
  · exact PollsThenReads.wrA idle (pollsThenReads_of_no_buffer (i := .crc32 false) front n idle rfl
      (commandResult_issued_of_crc { s with a := u } (.inr rfl)))
  · obtain ⟨bound, readable⟩ := given
    have value := (foldedAcc_issued_all (.crc16 true) { s with a := u, b := buf, len := len }).1 rfl
    have polls := pollsThenReads_of_buffer (s := { s with a := u, b := buf, len := len }) front n idle rfl bound readable
      value
    exact PollsThenReads.wrA idle (.wrB idle (.wrLen idle polls))
  · obtain ⟨bound, readable⟩ := given
    have value := (foldedAcc_issued_all (.crc32 true) { s with a := u, b := buf, len := len }).2 rfl
    have polls := pollsThenReads_of_buffer (s := { s with a := u, b := buf, len := len }) front n idle rfl bound readable
      value
    exact PollsThenReads.wrA idle (.wrB idle (.wrLen idle polls))

end Sys2Proof.Machine

/-! ## The hidden state is never read while BUSY = 0 (10_state.md rules R33 and R34) -/

namespace Sys2Proof.Machine

/-- The state with other values in the latch, the accumulator and the byte index. -/
def State.withHidden (s : State) (latch : Latch) (acc : Word) (k : BitVec 33) : State :=
  { s with latch := latch, acc := acc, k := k }

/-- What the hidden values must meet for the state with them to agree with the state. -/
def HiddenAgrees (s : State) (latch : Latch) (acc : Word) (k : BitVec 33) : Prop :=
  s.busy = true → s.latch = latch ∧ s.k = k ∧ (crcLatched s = true → s.acc = acc)

/-- Two states that agree differ in the hidden state alone. -/
theorem Agree.exists_withHidden {s t : State} (agree : Agree s t) :
    ∃ latch acc k, t = s.withHidden latch acc k ∧ HiddenAgrees s latch acc k :=
  ⟨t.latch, t.acc, t.k, agree.1.symm, agree.2⟩

theorem Agree.refl (s : State) : Agree s s := ⟨rfl, fun _ => ⟨rfl, rfl, fun _ => rfl⟩⟩

/-- Every register reads alike: none of them shows the hidden state. -/
theorem readReg_withHidden (r : Reg) (s : State) (latch : Latch) (acc : Word) (k : BitVec 33) :
    readReg r (s.withHidden latch acc k) = readReg r s := by
  cases r <;> rfl

/-- An outcome without the hidden state's part in it agrees with itself. -/
theorem OutcomesAgree.of_next {s t : State} {x y : Host.Outcome State Fault Refusal} (left : x = .next s)
    (right : y = .next t) (agree : Agree s t) : OutcomesAgree x y := by
  rw [left, right]
  exact agree

theorem OutcomesAgree.refl (x : Host.Outcome State Fault Refusal) : OutcomesAgree x x := by
  cases x with
  | next s => exact Agree.refl s
  | fault f => exact Eq.refl f
  | refused r => exact Eq.refl r

/-- The result of an operation other than a CRC depends on the latch alone (R162). -/
theorem commandResult_of_not_crc {s t : State} (notCrc : s.latch.op ≠ 1 ∧ s.latch.op ≠ 2) (latch : t.latch = s.latch) :
    commandResult t = commandResult s := by
  obtain ⟨not16, not32⟩ := notCrc
  unfold commandResult gcdResult grayencResult graydecResult isqrtResult
  rw [latch, if_neg not16, if_neg not16, if_neg not32, if_neg not32]

section
variable {s : State} {latch : Latch} {acc : Word} {k : BitVec 33} (agrees : HiddenAgrees s latch acc k)
include agrees

/-- A command write drops, turns away or issues alike in both states; the issue sets the latch and the index in both, and
the accumulator where a CRC will read it. -/
theorem exec_withHidden (i : Instr) : OutcomesAgree (exec i s) (exec i (s.withHidden latch acc k)) := by
  rcases exec_cases i s with ⟨busy, outcome⟩ | ⟨idle, past, outcome⟩ | ⟨idle, fits, outcome⟩
  · exact .of_next outcome (exec_busy i (s := s.withHidden latch acc k) busy) ⟨rfl, agrees⟩
  · exact .of_next outcome (exec_range (s := s.withHidden latch acc k) idle past) ⟨rfl, agrees⟩
  · refine .of_next outcome (exec_issue (s := s.withHidden latch acc k) idle fits)
      ⟨?_, fun _ => ⟨rfl, rfl, fun crc => ?_⟩⟩
    · cases i <;> rfl
    · cases i
      case crc16 | crc32 => rfl
      all_goals exact absurd ((crcLatched_iff _).1 crc) (by simp [issued, Instr.op])

theorem writeCmd_withHidden (v : Word) : OutcomesAgree (writeCmd v s) (writeCmd v (s.withHidden latch acc k)) := by
  cases decoded : decode v with
  | ok i =>
    rw [writeCmd_of_decode _ decoded, writeCmd_of_decode _ decoded]
    exact exec_withHidden agrees i
  | error why =>
    cases phase : s.busy with
    | true =>
      exact .of_next (writeReg_busy (r := .cmd) v phase (.inl rfl))
        (writeReg_busy (r := .cmd) (s := s.withHidden latch acc k) v phase (.inl rfl)) ⟨rfl, agrees⟩
    | false =>
      exact .of_next (writeCmd_illegal phase decoded)
        (writeCmd_illegal (s := s.withHidden latch acc k) phase decoded) ⟨rfl, agrees⟩

/-- A write to A, B or LEN, given what it does while BUSY = 0. -/
theorem writeOperand_withHidden {r : Reg} (v : Word) (operand : r = .a ∨ r = .b ∨ r = .len)
    (stores : s.busy = false → OutcomesAgree (writeReg r v s) (writeReg r v (s.withHidden latch acc k))) :
    OutcomesAgree (writeReg r v s) (writeReg r v (s.withHidden latch acc k)) := by
  cases phase : s.busy with
  | true =>
    exact .of_next (writeReg_busy v phase (.inr operand))
      (writeReg_busy (s := s.withHidden latch acc k) v phase (.inr operand)) ⟨rfl, agrees⟩
  | false => exact stores phase

theorem writeReg_withHidden (r : Reg) (v : Word) :
    OutcomesAgree (writeReg r v s) (writeReg r v (s.withHidden latch acc k)) := by
  cases r
  case cmd => exact writeCmd_withHidden agrees v
  case a =>
    refine writeOperand_withHidden agrees v (.inl rfl) fun idle => ?_
    exact .of_next (writeReg_a_of_idle idle v)
      (writeReg_a_of_idle (s := s.withHidden latch acc k) idle v) ⟨rfl, agrees⟩
  case b =>
    refine writeOperand_withHidden agrees v (.inr (.inl rfl)) fun idle => ?_
    exact .of_next (writeReg_b_of_idle idle v)
      (writeReg_b_of_idle (s := s.withHidden latch acc k) idle v) ⟨rfl, agrees⟩
  case len =>
    refine writeOperand_withHidden agrees v (.inr (.inr rfl)) fun idle => ?_
    exact .of_next (writeReg_len_of_idle idle v)
      (writeReg_len_of_idle (s := s.withHidden latch acc k) idle v) ⟨rfl, agrees⟩
  case status =>
    change Agree (writeStatus v s) (writeStatus v (s.withHidden latch acc k))
    unfold writeStatus
    split
    · exact ⟨rfl, agrees⟩
    · exact ⟨rfl, agrees⟩
  all_goals exact ⟨rfl, agrees⟩

/-- An idle engine reads nothing; a running CRC has the same hidden state in both; any other command has no byte step, and
its result depends on the latch alone. -/
theorem engineStep_withHidden : OutcomesAgree (engineStep s) (engineStep (s.withHidden latch acc k)) := by
  cases phase : s.busy with
  | false =>
    exact .of_next (engineStep_of_idle phase) (engineStep_of_idle (s := s.withHidden latch acc k) phase) ⟨rfl, agrees⟩
  | true =>
    obtain ⟨rfl, rfl, acc_eq⟩ := agrees phase
    cases crc : crcLatched s with
    | true =>
      obtain rfl := acc_eq crc
      exact OutcomesAgree.refl _
    | false =>
      have notCrc : s.latch.op ≠ 1 ∧ s.latch.op ≠ 2 := by simpa [crcLatched] using crc
      have disabled := byteStepEnabled_eq_false (.inl notCrc)
      have disabled' := byteStepEnabled_eq_false (s := s.withHidden s.latch acc s.k) (.inl notCrc)
      have same : commandResult (s.withHidden s.latch acc s.k) = commandResult s := commandResult_of_not_crc notCrc rfl
      have both (t : State) : t.busy = true → byteStepEnabled t = false → engineStep t = completionStep t :=
        fun busy disabled => by rw [engineStep, if_pos busy, disabled]; rfl
      rw [both _ phase disabled, both (s.withHidden s.latch acc s.k) phase disabled', completionStep, completionStep,
        same]
      cases commandResult s with
      | some r => exact ⟨rfl, fun busy => absurd busy Bool.false_ne_true⟩
      | none => rfl

theorem perform_withHidden (e : Event) : OutcomesAgree (perform e s) (perform e (s.withHidden latch acc k)) := by
  cases e with
  | hostWrite addr w v =>
    have same : access (s.withHidden latch acc k).params addr w = access s.params addr w := rfl
    rw [perform, perform, hostWrite, hostWrite, same]
    cases access s.params addr w with
    | error why => rfl
    | ok r => exact writeReg_withHidden agrees r v
  | hostRead addr w =>
    have same : access (s.withHidden latch acc k).params addr w = access s.params addr w := rfl
    rw [perform, perform, hostRead, hostRead, same]
    cases access s.params addr w with
    | error why => rfl
    | ok r =>
      refine ⟨?_, agrees⟩
      rw [readReg_withHidden]
      rfl
  | engine => exact engineStep_withHidden agrees
  | reset => exact Agree.refl _
  | dataWrite addr v => exact ⟨rfl, agrees⟩

end

/-- Settles O49: each event is `perform_withHidden`, the engine alone `engineStep_withHidden`, and no register shows the
hidden state. -/
theorem hiddenStateIsNeverReadWhileIdle : Obligations.HiddenStateIsNeverReadWhileIdle := by
  unfold Obligations.HiddenStateIsNeverReadWhileIdle
  refine ⟨fun s t agree => ?_, fun s t agree r => ?_⟩
  · obtain ⟨latch, acc, k, rfl, agrees⟩ := agree.exists_withHidden
    have same : (s.withHidden latch acc k).pending = s.pending := rfl
    rw [step, step, same]
    cases s.pending with
    | nil => exact engineStep_withHidden agrees
    | cons e rest => exact perform_withHidden (s := { s with pending := rest }) agrees e
  · obtain ⟨latch, acc, k, rfl, -⟩ := agree.exists_withHidden
    exact (readReg_withHidden r s latch acc k).symm

end Sys2Proof.Machine

/-! ## What a step can change (10_state.md rules R23 to R28, 20_memory.md rule R54, 60_exceptions.md rule R157) -/

namespace Sys2Proof.Machine

/-- Settles O50: every step keeps the parameters, so every run does. -/
theorem parametersNeverChange : Obligations.ParametersNeverChange := by
  unfold Obligations.ParametersNeverChange
  exact run_keeps (fun s t => t.params = s.params) (fun _ => rfl) (fun _ _ _ first second => second.trans first)
    fun _ _ => step_params

/-- Where an error is recorded a later one is not. -/
theorem withError_of_err {s : State} (erred : s.err = true) (code : ErrCode) (info : Word) :
    s.withError code info = s := by
  rw [← raiseError_eq, raiseError, if_pos erred]

/-- The error state of `t` is that of `s`. -/
def SameError (s t : State) : Prop := t.err = s.err ∧ t.errcode = s.errcode ∧ t.errinfo = s.errinfo

theorem sameError_withError {s : State} (erred : s.err = true) (code : ErrCode) (info : Word) :
    SameError s (s.withError code info) := by
  rw [withError_of_err erred]
  exact ⟨rfl, rfl, rfl⟩

/-- With an error recorded the engine records no other. -/
theorem engineStep_sameError {s t : State} (erred : s.err = true) (acts : engineStep s = .next t) : SameError s t := by
  rcases engineStep_cases acts with ⟨-, rfl⟩ | ⟨-, addr, -, ⟨-, rfl⟩ | ⟨-, rfl⟩⟩ | ⟨-, -, r, -, rfl⟩
  case inr.inl.inr => exact sameError_withError erred .memFault addr
  all_goals exact ⟨rfl, rfl, rfl⟩

/-- Settles O36: of the effects of a step only a reset and the clear write the error state where ERR = 1. -/
theorem errorIsStickyUntilCleared : Obligations.ErrorIsStickyUntilCleared := by
  unfold Obligations.ErrorIsStickyUntilCleared
  intro s t next erred noReset noClear
  suffices same : SameError s t by
    obtain ⟨err, errcode, errinfo⟩ := same
    exact ⟨err.trans erred, errcode, errinfo⟩
  rcases step_changes next with ⟨acts, -⟩ | ⟨event, -⟩ | ⟨_, _, -, effect⟩ | ⟨-, _, effect⟩ |
    ⟨-, off, -, _, -, effect⟩ | ⟨-, _, -, code, info, effect⟩ | ⟨-, _, _, -, -, effect⟩ | ⟨-, _, -, effect⟩ |
    ⟨-, _, -, effect⟩ | ⟨-, _, -, effect⟩ | ⟨v, clears, event, -⟩
  case inl => exact engineStep_sameError (s := { s with pending := t.pending }) erred acts
  case inr.inl => exact absurd event (noReset _)
  case inr.inr.inr.inr.inl =>
    rw [effect]
    exact sameError_withError (s := { s with pending := t.pending }) erred .busyWrite off
  case inr.inr.inr.inr.inr.inl =>
    rw [effect]
    exact sameError_withError (s := { s with pending := t.pending, done := false }) erred code info
  case inr.inr.inr.inr.inr.inr.inr.inr.inr.inr =>
    exact absurd (clears.symm.trans (noClear v _ event)) (by decide)
  all_goals
    rw [effect]
    exact ⟨rfl, rfl, rfl⟩

theorem engineStep_mem {s t : State} (acts : engineStep s = .next t) : t.mem = s.mem := by
  rcases engineStep_cases acts with ⟨-, rfl⟩ | ⟨-, addr, -, ⟨-, rfl⟩ | ⟨-, rfl⟩⟩ | ⟨-, -, r, -, rfl⟩ <;> rfl

/-- Apart from the engine, a reset and a write of another agent, no step changes RESULT or the data space. -/
theorem step_result_mem {s t : State} (next : step s = .next t) :
    engineStep { s with pending := t.pending } = .next t ∨
    (s.pending = .reset :: t.pending ∧ t = resetEvent { s with pending := t.pending }) ∨
    (∃ addr v, s.pending = .dataWrite addr v :: t.pending ∧ t = dataWrite addr v { s with pending := t.pending }) ∨
    (t.result = s.result ∧ t.mem = s.mem) := by
  rcases step_changes next with ⟨acts, -⟩ | reset | written | ⟨-, _, effect⟩ | ⟨-, _, -, _, -, effect⟩ |
    ⟨-, _, -, _, _, effect⟩ | ⟨-, _, _, -, -, effect⟩ | ⟨-, _, -, effect⟩ | ⟨-, _, -, effect⟩ | ⟨-, _, -, effect⟩ |
    ⟨_, -, -, effect⟩
  case inl => exact .inl acts
  case inr.inl => exact .inr (.inl reset)
  case inr.inr.inl => exact .inr (.inr (.inl written))
  all_goals
    exact .inr (.inr (.inr ⟨(congrArg State.result effect).trans rfl, (congrArg State.mem effect).trans rfl⟩))

/-- A step leaves the data space as it is unless its event is a write of another agent. -/
theorem step_mem {s t : State} (next : step s = .next t) :
    t.mem = s.mem ∨
      ∃ addr v, s.pending = .dataWrite addr v :: t.pending ∧ t.mem = s.mem.write addr.toNat v := by
  rcases step_result_mem next with acts | ⟨-, effect⟩ | ⟨addr, v, event, effect⟩ | ⟨-, same⟩
  · exact .inl ((engineStep_mem acts).trans rfl)
  · exact .inl ((congrArg State.mem effect).trans rfl)
  · exact .inr ⟨addr, v, event, (congrArg State.mem effect).trans rfl⟩
  · exact .inl same

/-- Settles O51: the only steps that write the data space are the events of other agents, each of which writes the one byte
it names. -/
theorem onlyOtherAgentsWriteTheDataSpace : Obligations.OnlyOtherAgentsWriteTheDataSpace := by
  unfold Obligations.OnlyOtherAgentsWriteTheDataSpace
  constructor
  · intro s t wf next x changed
    rcases step_mem next with same | ⟨addr, v, event, written⟩
    · exact absurd (congrArg (Memory.read · x) same) changed
    · rw [written, read_write wf] at changed ⊢
      by_cases here : x = addr.toNat
      · subst here
        rw [BitVec.ofNat_toNat, BitVec.setWidth_eq]
        exact ⟨v, _, event, addr.isLt, if_pos rfl⟩
      · exact absurd (if_neg here) changed
  · intro s addr v wf
    exact ⟨s.mem.write addr.toNat v, rfl, write_wf addr.isLt wf, fun x => read_write wf⟩

theorem engineStep_result {s t : State} (acts : engineStep s = .next t) :
    t.result = s.result ∨ s.busy = true ∧ t.busy = false ∧ t.done = true := by
  rcases engineStep_cases acts with ⟨-, rfl⟩ | ⟨-, addr, -, ⟨-, rfl⟩ | ⟨-, rfl⟩⟩ | ⟨busy, -, r, -, rfl⟩
  case inr.inr => exact .inr ⟨busy, rfl, rfl⟩
  all_goals exact .inl rfl

/-- Settles O52: of the effects of a step only the completion and a reset write RESULT. -/
theorem onlyCompletionWritesResult : Obligations.OnlyCompletionWritesResult := by
  unfold Obligations.OnlyCompletionWritesResult
  intro s t next changed
  rcases step_result_mem next with acts | ⟨event, effect⟩ | ⟨_, _, -, effect⟩ | ⟨same, -⟩
  · rcases engineStep_result acts with same | completes
    · exact absurd same changed
    · exact .inl completes
  · exact .inr ⟨_, event, (congrArg State.result effect).trans rfl⟩
  · exact absurd ((congrArg State.result effect).trans rfl) changed
  · exact absurd same changed

theorem engineStep_operands {s t : State} (acts : engineStep s = .next t) :
    t.a = s.a ∧ t.b = s.b ∧ t.len = s.len := by
  rcases engineStep_cases acts with ⟨-, rfl⟩ | ⟨-, addr, -, ⟨-, rfl⟩ | ⟨-, rfl⟩⟩ | ⟨-, -, r, -, rfl⟩ <;>
    exact ⟨rfl, rfl, rfl⟩

/-- Settles O53: of the effects of a step only three write an operand, each of which is a host write while BUSY = 0 to the
one that it changes. -/
theorem onlyTheHostWritesOperands : Obligations.OnlyTheHostWritesOperands := by
  unfold Obligations.OnlyTheHostWritesOperands
  intro s t next noReset
  rcases step_changes next with ⟨acts, -⟩ | ⟨event, -⟩ | ⟨_, _, -, effect⟩ | ⟨-, _, effect⟩ | ⟨-, _, -, _, -, effect⟩ |
    ⟨-, _, -, _, _, effect⟩ | ⟨-, _, _, -, -, effect⟩ | ⟨idle, v, event, effect⟩ | ⟨idle, v, event, effect⟩ |
    ⟨idle, v, event, effect⟩ | ⟨_, -, -, effect⟩
  case inl =>
    obtain ⟨sameA, sameB, sameLen⟩ := engineStep_operands acts
    exact ⟨absurd sameA, absurd sameB, absurd sameLen⟩
  case inr.inl => exact absurd event (noReset _)
  case inr.inr.inr.inr.inr.inr.inr.inl =>
    have value : t.a = v := (congrArg State.a effect).trans rfl
    exact ⟨fun _ => ⟨idle, _, value ▸ event⟩, absurd ((congrArg State.b effect).trans rfl),
      absurd ((congrArg State.len effect).trans rfl)⟩
  case inr.inr.inr.inr.inr.inr.inr.inr.inl =>
    have value : t.b = v := (congrArg State.b effect).trans rfl
    exact ⟨absurd ((congrArg State.a effect).trans rfl), fun _ => ⟨idle, _, value ▸ event⟩,
      absurd ((congrArg State.len effect).trans rfl)⟩
  case inr.inr.inr.inr.inr.inr.inr.inr.inr.inl =>
    have value : t.len = v := (congrArg State.len effect).trans rfl
    exact ⟨absurd ((congrArg State.a effect).trans rfl), absurd ((congrArg State.b effect).trans rfl),
      fun _ => ⟨idle, _, value ▸ event⟩⟩
  all_goals
    exact ⟨absurd ((congrArg State.a effect).trans rfl), absurd ((congrArg State.b effect).trans rfl),
      absurd ((congrArg State.len effect).trans rfl)⟩

/-! ## BUSY and DONE (10_state.md rule R32) -/

/-- The completion step of a running command comes next, and `t` is a state after it. -/
structure CompletesTo (s t : State) : Prop where
  acts     : EngineActs s
  running  : s.busy = true
  disabled : byteStepEnabled s = false
  result   : commandResult s = some t.result
  busy     : t.busy = false
  done     : t.done = true

/-- A byte step at an address that is not Readable comes next, and `t` is a state after it. -/
structure FaultsTo (s t : State) : Prop where
  acts       : EngineActs s
  unreadable : AtUnreadableByte s
  busy       : t.busy = false
  done       : t.done = false
  err        : t.err = true

/-- What a step can do to BUSY and DONE: the completion, a MEM_FAULT, a reset, a command write while BUSY = 0 that issues
nothing, the issue, or nothing. -/
theorem step_busy_done {s t : State} (next : step s = .next t) :
    CompletesTo s t ∨ FaultsTo s t ∨
    ((∃ rest, s.pending = .reset :: rest) ∧ t.busy = false ∧ t.done = false) ∨
    ((s.busy = false ∧ ∃ v rest, s.pending = cmdEvent s.params v :: rest) ∧ t.busy = false ∧ t.done = false) ∨
    ((t.busy = true ∧ t.done = false) ∧ s.busy = false ∧
      ∃ v i rest, s.pending = cmdEvent s.params v :: rest ∧ decode v = .ok i ∧ t = issued i { s with pending := rest }) ∨
    (t.busy = s.busy ∧ t.done = s.done) := by
  rcases step_changes next with ⟨acts, turn⟩ | ⟨event, effect⟩ | ⟨_, _, -, effect⟩ | ⟨-, _, effect⟩ |
    ⟨-, _, -, _, -, effect⟩ | ⟨idle, v, event, _, _, effect⟩ | ⟨idle, v, i, event, accepted, effect⟩ |
    ⟨-, _, -, effect⟩ | ⟨-, _, -, effect⟩ | ⟨-, _, -, effect⟩ | ⟨_, -, -, effect⟩
  case inl =>
    have engineActs : EngineActs s := turn.imp_right fun event => ⟨_, event⟩
    rcases engineStep_cases acts with ⟨-, effect⟩ | ⟨enabled, addr, address, ⟨-, effect⟩ | ⟨unreadable, effect⟩⟩ |
      ⟨busy, disabled, r, result, effect⟩
    case inr.inl.inr =>
      exact .inr (.inl ⟨engineActs, ⟨enabled, addr, address, unreadable⟩, effect ▸ rfl, effect ▸ rfl, effect ▸ rfl⟩)
    case inr.inr => exact .inl ⟨engineActs, busy, disabled, result.trans (effect ▸ rfl), effect ▸ rfl, effect ▸ rfl⟩
    all_goals
      exact .inr (.inr (.inr (.inr (.inr
        ⟨(congrArg State.busy effect).trans rfl, (congrArg State.done effect).trans rfl⟩))))
  case inr.inl => exact .inr (.inr (.inl ⟨⟨_, event⟩, effect ▸ rfl, effect ▸ rfl⟩))
  case inr.inr.inr.inr.inr.inl =>
    exact .inr (.inr (.inr (.inl ⟨⟨idle, v, _, event⟩, (congrArg State.busy effect).trans idle, effect ▸ rfl⟩)))
  case inr.inr.inr.inr.inr.inr.inl =>
    exact .inr (.inr (.inr (.inr (.inl ⟨⟨effect ▸ rfl, effect ▸ rfl⟩, idle, v, i, _, event, accepted, effect⟩))))
  all_goals
    exact .inr (.inr (.inr (.inr (.inr
      ⟨(congrArg State.busy effect).trans rfl, (congrArg State.done effect).trans rfl⟩))))

/-- Where the engine acts at an unreadable byte, the step is the MEM_FAULT. -/
theorem faultsTo_of_atUnreadableByte {s t : State} (next : step s = .next t) (acts : EngineActs s)
    (unreadable : AtUnreadableByte s) : FaultsTo s t := by
  obtain ⟨enabled, addr, address, refused⟩ := unreadable
  have fault (rest : List Event) := engineStep_byte (s := { s with pending := rest }) enabled address
  obtain ⟨rest, turn⟩ : ∃ rest, step s = engineStep { s with pending := rest } := by
    rcases acts with noEvent | ⟨rest, event⟩
    · exact ⟨[], by rw [step_of_pending_nil noEvent, ← noEvent]⟩
    · exact ⟨rest, by rw [step, event]; rfl⟩
  have notReadable : ¬ isReadable { s with pending := rest }.params addr = true :=
    fun given => Bool.false_ne_true (refused.symm.trans given)
  rw [turn, fault rest, if_neg notReadable] at next
  obtain rfl := Host.Outcome.next.inj next
  exact ⟨acts, ⟨enabled, addr, address, refused⟩, rfl, rfl, rfl⟩

/-- A command write while BUSY = 0 clears DONE, whatever its word. -/
theorem writeCmd_done {v : Word} {s t : State} (idle : s.busy = false) (write : writeCmd v s = .next t) :
    t.done = false := by
  rcases writeCmd_cases write with ⟨busy, -⟩ | ⟨-, -, outcome⟩ | ⟨-, i, -, command⟩
  · exact absurd (idle.symm.trans busy) Bool.false_ne_true
  · exact Host.Outcome.next.inj outcome ▸ rfl
  · obtain ⟨-, -, -, -, -, -, -, -, -, clears, -⟩ := commandWriteFrame i s t command.symm
    exact clears idle

theorem step_reset {s t : State} {rest : List Event} (next : step s = .next t) (event : s.pending = .reset :: rest) :
    t = resetEvent { s with pending := rest } := by
  rw [step, event] at next
  exact (Host.Outcome.next.inj next).symm

/-- Settles O54: the first four clauses are `step_busy_done` read by what BUSY and DONE were and are, the last three the
effects of the events they name. -/
theorem busyAndDoneFollowTheCommand : Obligations.BusyAndDoneFollowTheCommand := by
  unfold Obligations.BusyAndDoneFollowTheCommand
  intro s t next
  refine ⟨?_, ?_, ?_, ?_, ?_, ?_, ?_⟩
  · intro idle busy
    rcases step_busy_done next with completes | faults | ⟨-, busy', -⟩ | ⟨-, busy', -⟩ | ⟨⟨-, done⟩, -, issue⟩ | ⟨same, -⟩
    · exact absurd busy (by simp [completes.busy])
    · exact absurd busy (by simp [faults.busy])
    · exact absurd busy (by simp [busy'])
    · exact absurd busy (by simp [busy'])
    · exact ⟨done, issue⟩
    · exact absurd busy (by simp [same, idle])
  · intro busy idle
    rcases step_busy_done next with completes | faults | ⟨reset, -⟩ | ⟨⟨idle', -⟩, -⟩ | ⟨-, idle', -⟩ | ⟨same, -⟩
    · exact .inl ⟨completes.acts, completes.disabled, completes.done, completes.result⟩
    · exact .inr (.inl ⟨faults.acts, faults.unreadable, faults.done, faults.err⟩)
    · exact .inr (.inr reset)
    · exact absurd busy (by simp [idle'])
    · exact absurd busy (by simp [idle'])
    · exact absurd idle (by simp [same, busy])
  · intro notDone done
    rcases step_busy_done next with completes | faults | ⟨-, -, done'⟩ | ⟨-, -, done'⟩ | ⟨⟨-, done'⟩, -⟩ | ⟨-, same⟩
    · exact ⟨completes.acts, completes.running, completes.disabled, completes.busy, completes.result⟩
    · exact absurd done (by simp [faults.done])
    · exact absurd done (by simp [done'])
    · exact absurd done (by simp [done'])
    · exact absurd done (by simp [done'])
    · exact absurd done (by simp [same, notDone])
  · intro done notDone
    rcases step_busy_done next with completes | faults | ⟨reset, -⟩ | ⟨write, -⟩ | ⟨-, idle, v, _, rest, event, -⟩ |
      ⟨-, same⟩
    · exact absurd notDone (by simp [completes.done])
    · exact .inr (.inl ⟨faults.acts, faults.unreadable, faults.busy, faults.err⟩)
    · exact .inr (.inr reset)
    · exact .inl write
    · exact .inl ⟨idle, v, rest, event⟩
    · exact absurd notDone (by simp [same, done])
  · rintro idle ⟨v, rest, event⟩
    rw [step_of_cmdEvent event] at next
    exact writeCmd_done (s := { s with pending := rest }) idle next
  · intro acts unreadable
    have faults := faultsTo_of_atUnreadableByte next acts unreadable
    exact ⟨faults.busy, faults.done⟩
  · rintro ⟨rest, event⟩
    rw [step_reset next event]
    exact ⟨rfl, rfl⟩

end Sys2Proof.Machine

/-! ## Races (60_exceptions.md rules R153 and R164, 20_memory.md rule R67) -/

namespace Sys2Proof.Machine

/-- The offsets of CMD, A, B and LEN. -/
theorem exists_reg_of_offset {off : Word} (named : off ∈ ([0x00, 0x04, 0x08, 0x0C] : List Word)) :
    ∃ r, off = regOffset r ∧ (r = .cmd ∨ r = .a ∨ r = .b ∨ r = .len) := by
  simp only [List.mem_cons, List.not_mem_nil, or_false] at named
  rcases named with rfl | rfl | rfl | rfl
  · exact ⟨.cmd, rfl, .inl rfl⟩
  · exact ⟨.a, rfl, .inr (.inl rfl)⟩
  · exact ⟨.b, rfl, .inr (.inr (.inl rfl))⟩
  · exact ⟨.len, rfl, .inr (.inr (.inr rfl))⟩

/-- The write comes first: it is dropped and recorded, and the command completes. -/
theorem run_write_then_completion {s : State} {r : Reg} {result : Word} (v : Word) (busy : s.busy = true)
    (disabled : byteStepEnabled s = false) (value : commandResult s = some result)
    (guarded : r = .cmd ∨ r = .a ∨ r = .b ∨ r = .len) :
    Host.Core.run Sys2Proof.core 2 { s with pending := [.hostWrite (s.params.base + regOffset r) .word v, .engine] } =
      .next (completed result ({ s with pending := [] }.withError .busyWrite (regOffset r))) := by
  have drops := (step_wr s r v [.engine]).trans (writeReg_busy (s := { s with pending := [.engine] }) v busy guarded)
  have completes := engineStep_completion (s := { s with pending := [] }.withError .busyWrite (regOffset r)) busy disabled
    value
  exact run_next drops (run_next completes rfl)

/-- The completion comes first: the write reaches an idle block. -/
theorem run_completion_then_write {s : State} {r : Reg} {result : Word} (v : Word) (busy : s.busy = true)
    (disabled : byteStepEnabled s = false) (value : commandResult s = some result) {t : State}
    (write : writeReg r v { completed result s with pending := [] } = .next t) :
    Host.Core.run Sys2Proof.core 2 { s with pending := [.engine, .hostWrite (s.params.base + regOffset r) .word v] } =
      .next t := by
  have completes := engineStep_completion
    (s := { s with pending := [.hostWrite (s.params.base + regOffset r) .word v] }) busy disabled value
  exact run_next completes (run_next ((step_wr (completed result s) r v []).trans write) rfl)

/-- What a write to CMD does while BUSY = 0, by its word (R160). -/
theorem exists_writeCmd_idle {s : State} (idle : s.busy = false) (v : Word) :
    ∃ t, writeCmd v s = .next t ∧ t.result = s.result ∧
      (∀ why, decode v = .error why → t = { s with done := false }.withError .illegalOp v) ∧
      (∀ i, decode v = .ok i → PastTop i s → t = { s with done := false }.withError .range s.b) ∧
      (∀ i, decode v = .ok i → ¬ PastTop i s → t = issued i s) := by
  cases decoded : decode v with
  | error why => exact ⟨_, writeCmd_illegal idle decoded, rfl, fun _ _ => rfl, nofun, nofun⟩
  | ok i =>
    have command := writeCmd_legal idle decoded
    by_cases past : PastTop i s
    · refine ⟨_, command.trans (exec_range idle past), rfl, nofun, fun _ _ _ => rfl, ?_⟩
      rintro _ ⟨⟩ fits
      exact absurd past fits
    · refine ⟨_, command.trans (exec_issue idle past), rfl, nofun, ?_, ?_⟩
      · rintro _ ⟨⟩ past'
        exact absurd past' past
      · rintro _ ⟨⟩ _
        rfl

/-- Settles O55: each order is a run of two steps, and after the completion the block is idle. -/
theorem writeRacesWithCompletion : Obligations.WriteRacesWithCompletion := by
  unfold Obligations.WriteRacesWithCompletion
  intro s off v r busy disabled value named late
  obtain ⟨reg, rfl, guarded⟩ := exists_reg_of_offset named
  refine ⟨⟨_, run_write_then_completion v busy disabled value guarded, rfl⟩, ?_⟩
  have idle : late.busy = false := rfl
  have after {t : State} (write : writeReg reg v late = .next t) := run_completion_then_write v busy disabled value write
  rcases guarded with rfl | rfl | rfl | rfl
  · obtain ⟨t, write, result, illegal, past, fits⟩ := exists_writeCmd_idle idle v
    refine ⟨t, after write, result, Not.elim (by decide), Not.elim (by decide), Not.elim (by decide),
      fun _ why rejected => ?_, fun _ i accepted beyond => ?_, fun _ i accepted within => ?_⟩
    · rw [illegal why rejected]
      rfl
    · rw [past i accepted beyond]
      rfl
    · rw [fits i accepted within]
      exact ⟨rfl, rfl, rfl⟩
  · exact ⟨_, after (writeReg_a_of_idle idle v), rfl,
      fun _ => rfl, Not.elim (by decide), Not.elim (by decide), Not.elim (by decide),
      Not.elim (by decide), Not.elim (by decide)⟩
  · exact ⟨_, after (writeReg_b_of_idle idle v), rfl,
      Not.elim (by decide), fun _ => rfl, Not.elim (by decide), Not.elim (by decide),
      Not.elim (by decide), Not.elim (by decide)⟩
  · exact ⟨_, after (writeReg_len_of_idle idle v), rfl,
      Not.elim (by decide), Not.elim (by decide), fun _ => rfl, Not.elim (by decide),
      Not.elim (by decide), Not.elim (by decide)⟩

/-- Settles O56: a byte step and a write of the byte are two steps in either order; the read returns what the byte was when
it was read. -/
theorem bufferWriteRacesWithTheRead : Obligations.BufferWriteRacesWithTheRead := by
  unfold Obligations.BufferWriteRacesWithTheRead
  intro s v addr wf enabled address readable
  have written : (s.mem.write addr.toNat v).read addr.toNat = v := by rw [read_write wf, if_pos rfl]
  have reads (m : Memory) (es : List Event) : engineStep { s with mem := m, pending := es } =
      .next (foldByte addr { s with mem := m, pending := es }) :=
    (engineStep_byte (s := { s with mem := m, pending := es }) enabled address).trans (if_pos readable)
  constructor
  · exact ⟨_, run_next (reads s.mem [.dataWrite addr v]) (run_next rfl rfl), rfl, written⟩
  · refine ⟨_, run_next rfl (run_next (reads (s.mem.write addr.toNat v) []) rfl), ?_, written⟩
    rw [foldByte_history]
    exact congrArg (fun byte => Observation.engineRead addr byte :: s.history) written

end Sys2Proof.Machine
